-- ==== Sys2Proof/Word.lean ====
section
/-! DEFINITION. The data types of the cipher core: bytes, 4-byte words, 16-byte blocks, the 4×4 state
matrix and the 44-word key schedule (spec/00_scope.md R7, spec/10_state.md R11 to R13). Every multi-byte
object is a SEQUENCE of bytes, never a number (spec/20_memory.md R41), so the types are structures of bytes. -/

namespace Sys2Proof

/-- R7: a byte is an integer in 0..255, bit 0 its least significant bit. -/
abbrev Byte := BitVec 8

/-- R7, R60: the command word and the host-port registers are 32-bit numbers. -/
abbrev Word32 := BitVec 32

/-- R12: a word is a sequence of 4 bytes, positions 0 to 3; a column of the state is one too. -/
structure Word where
  b0 : Byte
  b1 : Byte
  b2 : Byte
  b3 : Byte
deriving DecidableEq, Repr, Inhabited

namespace Word

/-- The byte at a position (R12: `W[i][j]`). -/
def byte (w : Word) : Fin 4 → Byte
  | 0 => w.b0
  | 1 => w.b1
  | 2 => w.b2
  | 3 => w.b3

/-- The word whose byte at position `j` is `f j`. -/
def ofFn (f : Fin 4 → Byte) : Word := ⟨f 0, f 1, f 2, f 3⟩

/-- The word of four zero bytes. -/
def zero : Word := ⟨0, 0, 0, 0⟩

/-- Byte by byte exclusive or (R7). -/
def xor (v w : Word) : Word := ⟨v.b0 ^^^ w.b0, v.b1 ^^^ w.b1, v.b2 ^^^ w.b2, v.b3 ^^^ w.b3⟩

end Word

/-- R9, R11: a block is a sequence of 16 bytes, held as its four 4-byte groups in order
(R43: "the key split into 4-byte groups"). KEY, a round key and a message block are blocks. -/
structure Block where
  w0 : Word
  w1 : Word
  w2 : Word
  w3 : Word
deriving DecidableEq, Repr, Inhabited

namespace Block

/-- The 4-byte group `i`, bytes `4i` to `4i+3`. -/
def word (b : Block) : Fin 4 → Word
  | 0 => b.w0
  | 1 => b.w1
  | 2 => b.w2
  | 3 => b.w3

/-- Byte `k` of the block, `k` in 0..15 (R12: byte `k` is in group `k / 4` at position `k % 4`). -/
def byte (b : Block) (k : Fin 16) : Byte :=
  (b.word ⟨k.val / 4, by omega⟩).byte ⟨k.val % 4, by omega⟩

/-- The block whose byte `k` is `f k`. -/
def ofFn (f : Fin 16 → Byte) : Block :=
  ⟨⟨f 0, f 1, f 2, f 3⟩, ⟨f 4, f 5, f 6, f 7⟩, ⟨f 8, f 9, f 10, f 11⟩, ⟨f 12, f 13, f 14, f 15⟩⟩

end Block

/-- R13: the 4×4 byte matrix S, held as its four columns. -/
structure Mat where
  c0 : Word
  c1 : Word
  c2 : Word
  c3 : Word
deriving DecidableEq, Repr, Inhabited

namespace Mat

/-- Column `c` of the matrix, row 0 first. -/
def col (m : Mat) : Fin 4 → Word
  | 0 => m.c0
  | 1 => m.c1
  | 2 => m.c2
  | 3 => m.c3

/-- R13: `S[r][c]`, the byte at row `r`, column `c`. -/
def get (m : Mat) (r c : Fin 4) : Byte := (m.col c).byte r

/-- The matrix whose column `c` is `f c`. -/
def ofCols (f : Fin 4 → Word) : Mat := ⟨f 0, f 1, f 2, f 3⟩

/-- The matrix whose byte at row `r`, column `c` is `f r c`. -/
def ofFn (f : Fin 4 → Fin 4 → Byte) : Mat := ofCols fun c => Word.ofFn fun r => f r c

end Mat

/-- R12: the round-key schedule W, 44 words `W[0]` to `W[43]`. -/
abbrev Schedule := Vector Word 44

end Sys2Proof
end

