-- ==== Sys2Proof/Syntax.lean ====
section
/-! DEFINITION. The 24 commands (spec/30_encoding.md R67), one constructor per row of
spec/opcode_table.json, with the operands of spec/30_encoding.md R62 to R65. All other operands are implicit
(the registers and buffers the command's rule names). -/

namespace Sys2Proof

/-- A command with its operands: `a`, `b` bytes, `idx` the 4-bit index of format I. -/
inductive Instr where
  /-- 0x00, R160 -/
  | nop
  /-- 0x10, R82 -/
  | gfdbl (a : Byte)
  /-- 0x11, R83 -/
  | gfmul (a b : Byte)
  /-- 0x20, R93 -/
  | sbox (a : Byte)
  /-- 0x21, R94 -/
  | isbox (a : Byte)
  /-- 0x22, R95 -/
  | rcon (idx : BitVec 4)
  /-- 0x30, R103 -/
  | ldkey
  /-- 0x31, R104 -/
  | kexp
  /-- 0x32, R105 -/
  | rdrk (idx : BitVec 4)
  /-- 0x40, R119 -/
  | ldst
  /-- 0x41, R120 -/
  | stst
  /-- 0x42, R121 -/
  | ark (idx : BitVec 4)
  /-- 0x43, R122 -/
  | subb
  /-- 0x44, R123 -/
  | isubb
  /-- 0x45, R124 -/
  | shrow
  /-- 0x46, R125 -/
  | ishrow
  /-- 0x47, R126 -/
  | mixc
  /-- 0x48, R127 -/
  | imixc
  /-- 0x50, R132 -/
  | encb
  /-- 0x51, R133 -/
  | decb
  /-- 0x60, R144 -/
  | pad
  /-- 0x61, R145 -/
  | unpad
  /-- 0x62, R146 -/
  | ecbe
  /-- 0x63, R147 -/
  | ecbd
deriving DecidableEq, Repr, Inhabited

end Sys2Proof
end

