-- ==== Sys2Proof/WellFormed.lean ====
section
/-! DEFINITION. Which commands have an encoding: the index of a format I command lies in the range its
command allows (spec/30_encoding.md R64, R70); every value of a byte operand is legal (R62, R63). -/

namespace Sys2Proof

/-- R64: the greatest legal index of RDRK and ARK ("Round key `r` (0..10)"). -/
def maxRound : Nat := 10

/-- R64: the greatest legal index of RCON (an index into the "10-entry table"). -/
def maxRcon : Nat := 9

/-- A command is well formed when its index, if it has one, is in its legal range (R64, R70). -/
def Instr.wellFormed : Instr → Bool
  | .nop => true
  | .gfdbl _ => true
  | .gfmul _ _ => true
  | .sbox _ => true
  | .isbox _ => true
  | .rcon idx => decide (idx.toNat ≤ maxRcon)
  | .ldkey => true
  | .kexp => true
  | .rdrk idx => decide (idx.toNat ≤ maxRound)
  | .ldst => true
  | .stst => true
  | .ark idx => decide (idx.toNat ≤ maxRound)
  | .subb => true
  | .isubb => true
  | .shrow => true
  | .ishrow => true
  | .mixc => true
  | .imixc => true
  | .encb => true
  | .decb => true
  | .pad => true
  | .unpad => true
  | .ecbe => true
  | .ecbd => true

end Sys2Proof
end

