-- ==== Sys2Proof/Decode.lean ====
section
/-! DEFINITION. The command encoding (spec/30_encoding.md): the fields of a command word (R60 to R65), the
opcode map (R67), the total decoder in the order of R66, which rejects by name, and the encoder. -/

namespace Sys2Proof

/-- Why a command word is reserved. Each one raises IllegalCommand (R66, R175). -/
inductive Reject where
  /-- R68: the opcode is not in the map of R67. -/
  | reservedOpcode
  /-- R69: a field that the format marks "zero" is not zero. -/
  | zeroField
  /-- R70: the index of a format I command is outside its range. -/
  | indexRange
deriving DecidableEq, Repr

/-! ## Fields of a command word (R60 to R65) -/

/-- R60: bits 31:24. -/
def opField (cw : Word32) : Byte := cw.extractLsb' 24 8

/-- R65: bits 7:0, the operand `a` of format A and the operand `b` of format B. -/
def lowByte (cw : Word32) : Byte := cw.extractLsb' 0 8

/-- R65: bits 15:8, the operand `a` of format B. -/
def secondByte (cw : Word32) : Byte := cw.extractLsb' 8 8

/-- R65: bits 3:0, the operand `idx` of format I. -/
def idxField (cw : Word32) : BitVec 4 := cw.extractLsb' 0 4

/-- R61: bits 23:0 of a format N word. -/
def zeroN (cw : Word32) : BitVec 24 := cw.extractLsb' 0 24

/-- R62: bits 23:8 of a format A word. -/
def zeroA (cw : Word32) : BitVec 16 := cw.extractLsb' 8 16

/-- R63: bits 23:16 of a format B word. -/
def zeroB (cw : Word32) : BitVec 8 := cw.extractLsb' 16 8

/-- R64: bits 23:4 of a format I word. -/
def zeroI (cw : Word32) : BitVec 20 := cw.extractLsb' 4 20

/-! ## The four formats: the checks of R66 (2) and (3), then the operands -/

/-- R61: no operand. -/
def decodeN (cw : Word32) (i : Instr) : Except Reject Instr :=
  if zeroN cw = 0 then .ok i else .error .zeroField

/-- R62: one byte operand. -/
def decodeA (cw : Word32) (mk : Byte → Instr) : Except Reject Instr :=
  if zeroA cw = 0 then .ok (mk (lowByte cw)) else .error .zeroField

/-- R63: two byte operands. -/
def decodeB (cw : Word32) (mk : Byte → Byte → Instr) : Except Reject Instr :=
  if zeroB cw = 0 then .ok (mk (secondByte cw) (lowByte cw)) else .error .zeroField

/-- R64: one index, in 0..`top`. -/
def decodeI (cw : Word32) (top : Nat) (mk : BitVec 4 → Instr) : Except Reject Instr :=
  if zeroI cw = 0 then
    if (idxField cw).toNat ≤ top then .ok (mk (idxField cw)) else .error .indexRange
  else .error .zeroField

/-- R66: the decoder, total on the 2^32 words: the opcode is looked up in the map of R67, then the zero field of
its format is checked, then the range of an index. -/
def decode (cw : Word32) : Except Reject Instr :=
  match (opField cw).toNat with
  | 0x00 => decodeN cw .nop
  | 0x10 => decodeA cw .gfdbl
  | 0x11 => decodeB cw .gfmul
  | 0x20 => decodeA cw .sbox
  | 0x21 => decodeA cw .isbox
  | 0x22 => decodeI cw maxRcon .rcon
  | 0x30 => decodeN cw .ldkey
  | 0x31 => decodeN cw .kexp
  | 0x32 => decodeI cw maxRound .rdrk
  | 0x40 => decodeN cw .ldst
  | 0x41 => decodeN cw .stst
  | 0x42 => decodeI cw maxRound .ark
  | 0x43 => decodeN cw .subb
  | 0x44 => decodeN cw .isubb
  | 0x45 => decodeN cw .shrow
  | 0x46 => decodeN cw .ishrow
  | 0x47 => decodeN cw .mixc
  | 0x48 => decodeN cw .imixc
  | 0x50 => decodeN cw .encb
  | 0x51 => decodeN cw .decb
  | 0x60 => decodeN cw .pad
  | 0x61 => decodeN cw .unpad
  | 0x62 => decodeN cw .ecbe
  | 0x63 => decodeN cw .ecbd
  | _ => .error .reservedOpcode

/-! ## The encoder -/

/-- R61: a format N word. -/
def encodeN (op : Byte) : Word32 := op ++ (0 : BitVec 24)

/-- R62: a format A word. -/
def encodeA (op a : Byte) : Word32 := op ++ (0 : BitVec 16) ++ a

/-- R63: a format B word. -/
def encodeB (op a b : Byte) : Word32 := op ++ (0 : BitVec 8) ++ a ++ b

/-- R64: a format I word. -/
def encodeI (op : Byte) (idx : BitVec 4) : Word32 := op ++ (0 : BitVec 20) ++ idx

/-- R67: the opcode of each command. -/
def Instr.opcode : Instr → Byte
  | .nop => 0x00
  | .gfdbl _ => 0x10
  | .gfmul _ _ => 0x11
  | .sbox _ => 0x20
  | .isbox _ => 0x21
  | .rcon _ => 0x22
  | .ldkey => 0x30
  | .kexp => 0x31
  | .rdrk _ => 0x32
  | .ldst => 0x40
  | .stst => 0x41
  | .ark _ => 0x42
  | .subb => 0x43
  | .isubb => 0x44
  | .shrow => 0x45
  | .ishrow => 0x46
  | .mixc => 0x47
  | .imixc => 0x48
  | .encb => 0x50
  | .decb => 0x51
  | .pad => 0x60
  | .unpad => 0x61
  | .ecbe => 0x62
  | .ecbd => 0x63

/-- R60 to R67: the command word of a command. -/
def encode (i : Instr) : Word32 :=
  match i with
  | .nop => encodeN i.opcode
  | .gfdbl a => encodeA i.opcode a
  | .gfmul a b => encodeB i.opcode a b
  | .sbox a => encodeA i.opcode a
  | .isbox a => encodeA i.opcode a
  | .rcon idx => encodeI i.opcode idx
  | .ldkey => encodeN i.opcode
  | .kexp => encodeN i.opcode
  | .rdrk idx => encodeI i.opcode idx
  | .ldst => encodeN i.opcode
  | .stst => encodeN i.opcode
  | .ark idx => encodeI i.opcode idx
  | .subb => encodeN i.opcode
  | .isubb => encodeN i.opcode
  | .shrow => encodeN i.opcode
  | .ishrow => encodeN i.opcode
  | .mixc => encodeN i.opcode
  | .imixc => encodeN i.opcode
  | .encb => encodeN i.opcode
  | .decb => encodeN i.opcode
  | .pad => encodeN i.opcode
  | .unpad => encodeN i.opcode
  | .ecbe => encodeN i.opcode
  | .ecbd => encodeN i.opcode

/-! ## The opcode table with its masks (R67, R75) -/

/-- R75: one row of the opcode table; `top` is the greatest legal index of a format I row. -/
structure OpcodeRow where
  mnemonic : String
  pattern  : Word32
  mask     : Word32
  top      : Option Nat
deriving DecidableEq, Repr

/-- R67: the 24 rows, match and mask as the table prints them. -/
def opcodeTable : List OpcodeRow :=
  [ ⟨"NOP",    0x00000000, 0xFFFFFFFF, none⟩,
    ⟨"GFDBL",  0x10000000, 0xFFFFFF00, none⟩,
    ⟨"GFMUL",  0x11000000, 0xFFFF0000, none⟩,
    ⟨"SBOX",   0x20000000, 0xFFFFFF00, none⟩,
    ⟨"ISBOX",  0x21000000, 0xFFFFFF00, none⟩,
    ⟨"RCON",   0x22000000, 0xFFFFFFF0, some 9⟩,
    ⟨"LDKEY",  0x30000000, 0xFFFFFFFF, none⟩,
    ⟨"KEXP",   0x31000000, 0xFFFFFFFF, none⟩,
    ⟨"RDRK",   0x32000000, 0xFFFFFFF0, some 10⟩,
    ⟨"LDST",   0x40000000, 0xFFFFFFFF, none⟩,
    ⟨"STST",   0x41000000, 0xFFFFFFFF, none⟩,
    ⟨"ARK",    0x42000000, 0xFFFFFFF0, some 10⟩,
    ⟨"SUBB",   0x43000000, 0xFFFFFFFF, none⟩,
    ⟨"ISUBB",  0x44000000, 0xFFFFFFFF, none⟩,
    ⟨"SHROW",  0x45000000, 0xFFFFFFFF, none⟩,
    ⟨"ISHROW", 0x46000000, 0xFFFFFFFF, none⟩,
    ⟨"MIXC",   0x47000000, 0xFFFFFFFF, none⟩,
    ⟨"IMIXC",  0x48000000, 0xFFFFFFFF, none⟩,
    ⟨"ENCB",   0x50000000, 0xFFFFFFFF, none⟩,
    ⟨"DECB",   0x51000000, 0xFFFFFFFF, none⟩,
    ⟨"PAD",    0x60000000, 0xFFFFFFFF, none⟩,
    ⟨"UNPAD",  0x61000000, 0xFFFFFFFF, none⟩,
    ⟨"ECBE",   0x62000000, 0xFFFFFFFF, none⟩,
    ⟨"ECBD",   0x63000000, 0xFFFFFFFF, none⟩ ]

/-- R67: a word selects a row when `cw & mask == match` and, for format I, its index is in range. -/
def OpcodeRow.selects (row : OpcodeRow) (cw : Word32) : Bool :=
  cw &&& row.mask == row.pattern &&
    match row.top with
    | none => true
    | some top => decide ((idxField cw).toNat ≤ top)

/-- R67: the mnemonic of a command, as the opcode map spells it. -/
def Instr.mnemonic : Instr → String
  | .nop => "NOP"
  | .gfdbl _ => "GFDBL"
  | .gfmul _ _ => "GFMUL"
  | .sbox _ => "SBOX"
  | .isbox _ => "ISBOX"
  | .rcon _ => "RCON"
  | .ldkey => "LDKEY"
  | .kexp => "KEXP"
  | .rdrk _ => "RDRK"
  | .ldst => "LDST"
  | .stst => "STST"
  | .ark _ => "ARK"
  | .subb => "SUBB"
  | .isubb => "ISUBB"
  | .shrow => "SHROW"
  | .ishrow => "ISHROW"
  | .mixc => "MIXC"
  | .imixc => "IMIXC"
  | .encb => "ENCB"
  | .decb => "DECB"
  | .pad => "PAD"
  | .unpad => "UNPAD"
  | .ecbe => "ECBE"
  | .ecbd => "ECBD"

/-! ## The host's entry -/

/-- The command word whose low `nbits` bits are those of `w` and whose other bits are 0. -/
def tableWord (nbits w : Nat) : Word32 := BitVec.ofNat 32 (w % 2 ^ nbits)

/-- What the decoder reads from the instruction whose bits are `w`, numbered as spec/opcode_table.json numbers them
(one 32-bit number, bit 0 its least significant, R60); nothing where it rejects or where `nbits` exceeds a command. -/
def decodeTableWord (nbits w : Nat) : Option Instr :=
  if nbits ≤ 32 then (decode (tableWord nbits w)).toOption else none

end Sys2Proof
end

