-- ==== Sys2Proof/Machine/KeySchedule.lean ====
section
/-! DEFINITION. The AES-128 key schedule (spec/42_key_schedule.md R100 to R102): a pure function of the key. -/

namespace Sys2Proof.Machine

/-- R101, R44: "rotate `temp` left by one byte": `[t0, t1, t2, t3]` becomes `[t1, t2, t3, t0]`. -/
def rotWord (t : Word) : Word := ⟨t.b1, t.b2, t.b3, t.b0⟩

/-- R101: "substitute every byte of `temp` through the S-box". -/
def subWord (t : Word) : Word := ⟨sbox t.b0, sbox t.b1, sbox t.b2, sbox t.b3⟩

/-- R101: "XOR the first byte of `temp` with" the round constant `c`. -/
def addRcon (t : Word) (c : Byte) : Word := ⟨t.b0 ^^^ c, t.b1, t.b2, t.b3⟩

/-- R101: `temp` for word index `i`, from `w[i-1]`: rotated, then substituted, then the constant, when `i % 4 == 0`. -/
def scheduleTemp (i : Nat) (previous : Word) : Word :=
  if i % 4 = 0 then addRcon (subWord (rotWord previous)) (rcon (i / 4 - 1)) else previous

/-- R101: the words `w[i]`, `w[i+1]`, … (`n` of them), from the four words before them, `w[i-4]` to `w[i-1]`:
`w[i] = w[i-4] XOR temp`. -/
def wordsFrom : Nat → Nat → Word → Word → Word → Word → List Word
  | 0, _, _, _, _, _ => []
  | n + 1, i, back4, back3, back2, back1 =>
    back4.xor (scheduleTemp i back1) ::
      wordsFrom n (i + 1) back3 back2 back1 (back4.xor (scheduleTemp i back1))

/-- R101: the 44 words in order: the key's four groups, then `i` from 4 to 43. -/
def keyWords (k : Block) : List Word :=
  k.w0 :: k.w1 :: k.w2 :: k.w3 :: wordsFrom 40 4 k.w0 k.w1 k.w2 k.w3

theorem wordsFrom_length (n i : Nat) (a b c d : Word) : (wordsFrom n i a b c d).length = n := by
  induction n generalizing i a b c d with
  | zero => rfl
  | succ n ih => simp [wordsFrom, ih]

theorem keyWords_length (k : Block) : (keyWords k).toArray.size = 44 := by
  simp [keyWords, wordsFrom_length]

/-- R100, R101: `keyExpand(k)`. -/
def keyExpand (k : Block) : Schedule := ⟨(keyWords k).toArray, keyWords_length k⟩

/-- R102, R12: round key `r`, `r` in 0..10: the concatenation of `W[4r]` to `W[4r+3]`. -/
def roundKey (w : Schedule) (r : Fin 11) : Block :=
  ⟨w.get ⟨4 * r.val, by omega⟩, w.get ⟨4 * r.val + 1, by omega⟩,
   w.get ⟨4 * r.val + 2, by omega⟩, w.get ⟨4 * r.val + 3, by omega⟩⟩

end Sys2Proof.Machine
end

