-- ==== Sys2Proof/Machine/Gf.lean ====
section
/-! DEFINITION. Arithmetic in GF(2^8) under x^8+x^4+x^3+x+1 (spec/40_gf_arithmetic.md R80, R81): two pure
functions, total on bytes (R85). -/

namespace Sys2Proof.Machine

/-- R80: "If the high bit of `a` is set, shift left one bit, then XOR with 0x1b, masked to 8 bits; otherwise just
shift left, masked to 8 bits." -/
def double (a : Byte) : Byte :=
  if a.getLsbD 7 then (a <<< 1) ^^^ 0x1b else a <<< 1

/-- R81: one pass of the loop for bit `i` of `b`, over the pair of the sum `p` and the doubled copy `x` of `a`. -/
def multiplyStep (b : Byte) (px : Byte × Byte) (i : Nat) : Byte × Byte :=
  (if b.getLsbD i then px.1 ^^^ px.2 else px.1, double px.2)

/-- R81: the 8 bits of `b` are visited least significant first, `p` starts at 0 and `x` at `a` (D21). -/
def multiply (a b : Byte) : Byte :=
  ((List.range 8).foldl (multiplyStep b) (0, a)).1

end Sys2Proof.Machine
end

