-- ==== Sys2Proof/Machine/Transform.lean ====
section
/-! DEFINITION. The state transforms (spec/43_state_transform.md R110 to R118): nine pure functions on the 4×4 byte
matrix. Arithmetic on row and column numbers is modulo 4 (`Fin 4`). -/

namespace Sys2Proof.Machine

/-- R110: "column-major": `s[i % 4][i / 4] = b[i]`, that is `s[r][c] = b[4c + r]`. -/
def bytesToState (b : Block) : Mat :=
  Mat.ofFn fun r c => b.byte ⟨4 * c.val + r.val, by omega⟩

/-- R111: `b[i] = s[i % 4][i / 4]`. -/
def stateToBytes (s : Mat) : Block :=
  Block.ofFn fun i => s.get ⟨i.val % 4, by omega⟩ ⟨i.val / 4, by omega⟩

/-- R112: `s'[r][c] = s[r][c] ^ k[4c + r]`. -/
def addRoundKey (s : Mat) (k : Block) : Mat :=
  Mat.ofFn fun r c => s.get r c ^^^ k.byte ⟨4 * c.val + r.val, by omega⟩

/-- R113: `s'[r][c] = SBOX[s[r][c]]`. -/
def subBytes (s : Mat) : Mat := Mat.ofFn fun r c => sbox (s.get r c)

/-- R114: `s'[r][c] = ISBOX[s[r][c]]`. -/
def invSubBytes (s : Mat) : Mat := Mat.ofFn fun r c => isbox (s.get r c)

/-- R115: row `r` rotated left by `r`: `s'[r][c] = s[r][(c + r) % 4]`. -/
def shiftRows (s : Mat) : Mat := Mat.ofFn fun r c => s.get r (c + r)

/-- R116: row `r` rotated right by `r`: `s'[r][c] = s[r][(c + 4 − r) % 4]`. -/
def invShiftRows (s : Mat) : Mat := Mat.ofFn fun r c => s.get r (c - r)

/-- R117: one column, all four outputs from the four old bytes. -/
def mixColumn (a : Word) : Word :=
  ⟨multiply 0x02 a.b0 ^^^ multiply 0x03 a.b1 ^^^ a.b2 ^^^ a.b3,
   a.b0 ^^^ multiply 0x02 a.b1 ^^^ multiply 0x03 a.b2 ^^^ a.b3,
   a.b0 ^^^ a.b1 ^^^ multiply 0x02 a.b2 ^^^ multiply 0x03 a.b3,
   multiply 0x03 a.b0 ^^^ a.b1 ^^^ a.b2 ^^^ multiply 0x02 a.b3⟩

/-- R117: each column independently. -/
def mixColumns (s : Mat) : Mat := Mat.ofCols fun c => mixColumn (s.col c)

/-- R118: one column of the inverse. -/
def invMixColumn (a : Word) : Word :=
  ⟨multiply 0x0e a.b0 ^^^ multiply 0x0b a.b1 ^^^ multiply 0x0d a.b2 ^^^ multiply 0x09 a.b3,
   multiply 0x09 a.b0 ^^^ multiply 0x0e a.b1 ^^^ multiply 0x0b a.b2 ^^^ multiply 0x0d a.b3,
   multiply 0x0d a.b0 ^^^ multiply 0x09 a.b1 ^^^ multiply 0x0e a.b2 ^^^ multiply 0x0b a.b3,
   multiply 0x0b a.b0 ^^^ multiply 0x0d a.b1 ^^^ multiply 0x09 a.b2 ^^^ multiply 0x0e a.b3⟩

/-- R118: each column independently. -/
def invMixColumns (s : Mat) : Mat := Mat.ofCols fun c => invMixColumn (s.col c)

end Sys2Proof.Machine
end

