-- ==== Sys2Proof/Machine/Cipher.lean ====
section
/-! DEFINITION. The block cipher core (spec/44_block_cipher.md R130, R131): 10 rounds over 11 round keys
(spec/90_conflicts.md C1). -/

namespace Sys2Proof.Machine

/-- R130: rounds 1..9: `subBytes → shiftRows → mixColumns → addRoundKey(round r)`. -/
def encryptRound (w : Schedule) (s : Mat) (r : Fin 11) : Mat :=
  addRoundKey (mixColumns (shiftRows (subBytes s))) (roundKey w r)

/-- R130: `encryptBlock(b, w)`; the final round has no mixColumns. -/
def encryptBlock (b : Block) (w : Schedule) : Block :=
  let s := addRoundKey (bytesToState b) (roundKey w 0)
  let s := [1, 2, 3, 4, 5, 6, 7, 8, 9].foldl (encryptRound w) s
  stateToBytes (addRoundKey (shiftRows (subBytes s)) (roundKey w 10))

/-- R131: rounds 9..1: `invShiftRows → invSubBytes → addRoundKey(round r) → invMixColumns`. -/
def decryptRound (w : Schedule) (s : Mat) (r : Fin 11) : Mat :=
  invMixColumns (addRoundKey (invSubBytes (invShiftRows s)) (roundKey w r))

/-- R131: `decryptBlock(b, w)`, the exact mirror. -/
def decryptBlock (b : Block) (w : Schedule) : Block :=
  let s := addRoundKey (bytesToState b) (roundKey w 10)
  let s := [9, 8, 7, 6, 5, 4, 3, 2, 1].foldl (decryptRound w) s
  stateToBytes (addRoundKey (invSubBytes (invShiftRows s)) (roundKey w 0))

end Sys2Proof.Machine
end

