-- ==== Sys2Proof/Machine/Bytes.lean ====
section
/-! DEFINITION. Blocks and byte sequences (spec/20_memory.md R41, R43, R45): the order of the sequence is the order
of the indices, and nothing is padded or cut. -/

namespace Sys2Proof.Machine

/-- The block of a 16-byte sequence, byte 0 first (R41). Every use has 16 bytes (R45). -/
def blockOfBytes (bs : List Byte) : Block := Block.ofFn fun k => bs.getD k.val 0

/-- The 16 bytes of a block, byte 0 first (R41). -/
def blockToBytes (b : Block) : List Byte :=
  [b.byte 0, b.byte 1, b.byte 2, b.byte 3, b.byte 4, b.byte 5, b.byte 6, b.byte 7,
   b.byte 8, b.byte 9, b.byte 10, b.byte 11, b.byte 12, b.byte 13, b.byte 14, b.byte 15]

/-- The first `n` blocks of a message, block `j` its bytes `16j` to `16j+15` (R45). -/
def splitBlocks : Nat → List Byte → List Block
  | 0, _ => []
  | n + 1, bs => blockOfBytes (bs.take 16) :: splitBlocks n (bs.drop 16)

/-- The concatenation of the blocks' bytes, in order. -/
def joinBlocks (blocks : List Block) : List Byte := blocks.flatMap blockToBytes

end Sys2Proof.Machine
end

