-- ==== Sys2Proof/Config.lean ====
section
/-! DEFINITION. What is fixed for one instance of the hardware, and the free values: what the spec leaves
open (spec/00_scope.md R4, R5; spec/10_state.md R28, R30; spec/92_eei_decisions.md D3, D10, D15, D18).
A free value is an `opaque` constant: nothing can be proved of its value. -/

namespace Sys2Proof.Config

/-- R4: a block, and a key, is 16 bytes. -/
def blockLen : Nat := 16

/-- R5, D3: the admissible values of the open parameter CAP, the capacity of each message buffer. -/
abbrev AdmissibleCap (cap : Nat) : Prop := cap % 16 = 0 ∧ 32 ≤ cap ∧ cap ≤ 2 ^ 31 - 16

/-- DESIGN CHOICE (log entry 1, unsafe for a claim about `State.reset` alone): the capacity of the instance
that `State.reset` describes. CAP is an open parameter (R5). It is a field of State that no step changes, and the
machine reads that field, never this constant: every statement over all states covers every CAP. 64 is the value
of spec/95_test_vectors.md ("CAP is 64"). -/
def capacity : Nat := 64

/-- What an unspecified outcome may depend on: everything the data registers and the buffers hold. -/
structure Contents where
  key  : Block
  w    : Schedule
  smat : Mat
  ibuf : List Host.Cell
  obuf : List Host.Cell
deriving DecidableEq, Repr, Inhabited

/-- FREE VALUE (log entry 2): what KEY, W and S hold in `State.reset`. R30: "unspecified after reset …
a model must give them no value". -/
opaque powerOn : Contents

/-- FREE VALUE (log entry 2): what KEY, W and S hold after a HostReset, a fresh draw at every reset.
R200: "a model must not assume they are zeroed and must not assume they are kept". -/
opaque afterReset (draw : Nat) (before : Contents) : Contents

/-- FREE VALUE (log entry 3): what S holds after ENCB, DECB, ECBE or ECBD (R13, D10: "S unspecified"). -/
opaque discardedState (draw : Nat) (before : Contents) : Mat

/-- FREE VALUE (log entry 4): UNPAD_UNDERFLOW (R5, R152, D18), the bytes that come out when the last byte of the
unpadder's input `d` claims more bytes than `d` has. The machine keeps at most CAP of them; R152 gives no other law. -/
opaque unpadUnderflow (draw cap : Nat) (before : Contents) (d : List Byte) : List Byte

end Sys2Proof.Config
end

