-- ==== Sys2Proof/Machine/State.lean ====
section
/-! DEFINITION. The whole state of one instance (spec/10_state.md R10), the HOST's side of the port
(spec/20_memory.md R48 to R52), the reset state (R30) and the reasons a step can stop. -/

namespace Sys2Proof.Machine

/-- One buffer (R23, R24, R40): its bytes by index, in the one canonical form of `Memory.wf` (indices strictly rising).
An index that is not listed holds an unspecified byte: reading it stops, it has no value (log entry 6, safe). -/
abbrev Memory := List Host.Cell

/-- R40: the five address spaces. -/
inductive Space where
  | ibuf
  | obuf
  | sbox
  | isbox
  | rcon
deriving DecidableEq, Repr

/-- R6, R48 to R52: one transaction of HOST at the port. -/
inductive Transaction where
  /-- R48: HostPutInput(m). -/
  | put (m : List Byte)
  /-- R49: HostIssue(cw). -/
  | issue (cw : Word32)
  /-- R50: HostGetOutput(). -/
  | getOutput
  /-- R51: HostReadReg(n). -/
  | readReg (n : Nat)
  /-- R19 to R22: a HOST write of `v` to port register `n` (register 0 is CMD). -/
  | writeReg (n : Nat) (v : Word32)
  /-- R52: HostReset(). -/
  | reset
deriving DecidableEq, Repr

/-- What the last transaction returned to HOST (R50, R51). -/
inductive Reply where
  /-- The transaction returns nothing. -/
  | none
  /-- The bytes of HostGetOutput. -/
  | bytes (bs : List Byte)
  /-- The value of HostReadReg. -/
  | word (v : Word32)
deriving DecidableEq, Repr

/-- Why the machine stops with a fault. No state that satisfies `State.Inv` reaches either one. -/
inductive Fault where
  /-- Raised by a command that reads its message or a table, and by HostGetOutput: MemRead of bytes outside the valid
  part of a space, or of a byte that holds no value. R46: such a read "cannot occur and has no meaning". Safe. -/
  | invalidRead (space : Space) (addr n : Nat)
  /-- Raised by a command that produces output: MemWrite of bytes outside the CAP bytes of OBUF, which R47 excludes. Safe. -/
  | writeOutside (addr n : Nat)
deriving DecidableEq, Repr

/-- Why a step is refused. -/
inductive Refusal where
  /-- Raised by an arm of `exec` whose instruction has no meaning yet. Safe. No arm is one now. -/
  | notModelled (mnemonic : String)
  /-- Raised by the transaction HostPutInput, for a message longer than CAP. R48: "the model gives HOST no such move (a
  refusal, which errs toward unprovable)". Safe. -/
  | messageTooLong (len : Nat)
deriving DecidableEq, Repr

/-- R10: the whole state of one instance, and four fields of the model's own. -/
structure State where
  /-- R5, R28: CAP, the bytes each buffer holds. Fixed for the instance: no step changes it. The model's own place for
  the open parameter (log entry 1). -/
  cap : Nat
  /-- R11: the cipher key. Meaningful while KV = 1. -/
  key : Block
  /-- R12: the round-key schedule. Meaningful while RKV = 1. -/
  w : Schedule
  /-- R13: the state matrix S. Meaningful while SV = 1. -/
  smat : Mat
  /-- R14: KEY holds a key. -/
  kv : Bool
  /-- R15: W holds the schedule of KEY. -/
  rkv : Bool
  /-- R16: S holds a state. -/
  sv : Bool
  /-- R17: a ConfigError was raised since the last reset. -/
  fatal : Bool
  /-- R18: the outcome code of the last command. -/
  err : BitVec 4
  /-- R20: the number of valid bytes in IBUF. -/
  ilen : Word32
  /-- R21: the number of valid bytes in OBUF. -/
  olen : Word32
  /-- R23: the input buffer. -/
  ibuf : Memory
  /-- R24: the output buffer. -/
  obuf : Memory
  /-- The model's own: how many free values have been drawn (log entries 2 to 4). -/
  draws : Nat
  /-- The model's own: the transactions HOST will make, the next one first (R6, R55; log entry 7). -/
  host : List Transaction
  /-- The model's own: what the last transaction returned to HOST (log entry 7). -/
  reply : Reply
deriving DecidableEq, Repr

/-- R30, R200: the reset state of an instance of capacity `cap`: the flags, ERR, ILEN and OLEN are 0 and no byte of a
buffer holds a value; KEY, W and S are unspecified and hold what `left` says. -/
def State.resetWith (cap draws : Nat) (left : Config.Contents) : State where
  cap := cap
  key := left.key
  w := left.w
  smat := left.smat
  kv := false
  rkv := false
  sv := false
  fatal := false
  err := 0
  ilen := 0
  olen := 0
  ibuf := []
  obuf := []
  draws := draws
  host := []
  reply := .none

/-- R30: the machine right after reset, with no transaction waiting. -/
def State.reset : State := State.resetWith Config.capacity 0 Config.powerOn

end Sys2Proof.Machine
end

