-- ==== Sys2Proof/Machine/Flags.lean ====
section
/-! DEFINITION. The error codes (spec/60_exceptions.md §2, R18) and the STATUS view of the flags
(spec/10_state.md R19). -/

namespace Sys2Proof.Machine

/-- R172 to R175, R177: the five errors a command can raise. -/
inductive CommandError where
  /-- R172, the only fatal one. -/
  | config
  /-- R174. -/
  | format
  /-- R175. -/
  | illegalCommand
  /-- R173. -/
  | sequence
  /-- R177. -/
  | capacity
deriving DecidableEq, Repr

/-- R18: the code an error leaves in ERR. -/
def CommandError.code : CommandError → BitVec 4
  | .config => 1
  | .format => 2
  | .illegalCommand => 3
  | .sequence => 4
  | .capacity => 5

/-- R172: ConfigError "is the only fatal error". -/
def CommandError.isFatal : CommandError → Bool
  | .config => true
  | .format => false
  | .illegalCommand => false
  | .sequence => false
  | .capacity => false

/-- R19: STATUS: bit 0 KV, bit 1 RKV, bit 2 SV, bit 3 FATAL, bits 7:4 ERR, bits 31:8 zero. -/
def statusWord (s : State) : Word32 :=
  (0 : BitVec 24) ++ s.err ++ BitVec.ofBool s.fatal ++ BitVec.ofBool s.sv ++ BitVec.ofBool s.rkv ++ BitVec.ofBool s.kv

/-- R51, R22: the value HOST reads from port register `n`: CMD reads zero, registers 4 and above do not exist and
read zero. -/
def portRegister (s : State) (n : Nat) : Word32 :=
  match n with
  | 1 => statusWord s
  | 2 => s.ilen
  | 3 => s.olen
  | _ => 0

end Sys2Proof.Machine
end

