-- ==== Sys2Proof/Machine/Padding.lean ====
section
/-! DEFINITION. PKCS#7 padding and ECB mode (spec/45_padding_ecb.md R140 to R143). The unpadder validates nothing
(R151): it reads the last byte and strips that many. -/

namespace Sys2Proof.Machine

/-- R140: `padLen = 16 − (L % 16)`, in 1..16. -/
def padLen (len : Nat) : Nat := 16 - len % 16

/-- R140: `padLen` bytes each equal to `padLen` are appended. -/
def pad (m : List Byte) : List Byte :=
  m ++ List.replicate (padLen m.length) (BitVec.ofNat 8 (padLen m.length))

/-- R141: the last byte of `d` is the count of bytes to strip. Nothing comes out where that count exceeds the length
(`UNPAD_UNDERFLOW`, R152) or where there is no last byte (R145 and R147 raise FormatError there). -/
def unpad (d : List Byte) : Option (List Byte) :=
  match d.getLast? with
  | none => none
  | some count => if count.toNat ≤ d.length then some (d.take (d.length - count.toNat)) else none

/-- R142: "pad the message, split into consecutive 16-byte blocks, encrypt each block independently with the same
round-key schedule, concatenate." -/
def ecbEncode (m : List Byte) (w : Schedule) : List Byte :=
  joinBlocks ((splitBlocks ((pad m).length / 16) (pad m)).map fun b => encryptBlock b w)

/-- R143: "decrypt each block independently, concatenate": the unpadder's input. -/
def ecbDecryptBlocks (c : List Byte) (w : Schedule) : List Byte :=
  joinBlocks ((splitBlocks (c.length / 16) c).map fun b => decryptBlock b w)

end Sys2Proof.Machine
end

