-- ==== Sys2Proof/Machine/Ops.lean ====
section
/-! DEFINITION. The named operations over buffers and registers, and how every command runs: the order of checks of
spec/60_exceptions.md R170 and R178, raising an error (R176), completing, delivering a result, discarding S. -/

namespace Sys2Proof.Machine

/-- The outcome of a command, a transaction or a step. -/
abbrev Result := Host.Outcome State Fault Refusal

/-! ## Buffers -/

/-- The canonical form of a buffer: the indices rise strictly. -/
abbrev Memory.wf (m : Memory) : Prop := m.Pairwise fun x y => x.1 < y.1

/-- The byte at an index, if that byte holds a value. -/
def Memory.read1 : Memory → Nat → Option Byte
  | [], _ => none
  | (k, b) :: rest, a => if k = a then some b else Memory.read1 rest a

/-- One byte written; every other index keeps its byte. -/
def Memory.write1 : Memory → Nat → Byte → Memory
  | [], a, b => [(a, b)]
  | (k, v) :: rest, a, b =>
    if a < k then (a, b) :: (k, v) :: rest
    else if a = k then (a, b) :: rest
    else (k, v) :: Memory.write1 rest a b

/-- R47: `space[addr+k] <- v[k]`. -/
def Memory.writeBytes : Memory → Nat → List Byte → Memory
  | m, _, [] => m
  | m, a, b :: bs => Memory.writeBytes (Memory.write1 m a b) (a + 1) bs

/-- The bytes at indices `n` and above become unspecified (R23, R24, R48). -/
def Memory.below (m : Memory) (n : Nat) : Memory := m.filter fun c => decide (c.1 < n)

/-- R46: the `n` bytes at indices `addr` to `addr+n−1`, first index first, if each holds a value. -/
def readSeq (f : Nat → Option Byte) (addr : Nat) : Nat → Option (List Byte)
  | 0 => some []
  | n + 1 =>
    match f addr, readSeq f (addr + 1) n with
    | some b, some bs => some (b :: bs)
    | _, _ => none

/-- R46: MemRead. It is defined only inside the valid part of the space: below ILEN in IBUF, below OLEN in OBUF (which
only HOST reads, R50), inside the table in a ROM. -/
def memRead (s : State) (space : Space) (addr n : Nat) : Option (List Byte) :=
  match space with
  | .ibuf => if addr + n ≤ s.ilen.toNat then readSeq (Memory.read1 s.ibuf) addr n else none
  | .obuf => if addr + n ≤ s.olen.toNat then readSeq (Memory.read1 s.obuf) addr n else none
  | .sbox => readSeq (romByte sboxRows) addr n
  | .isbox => readSeq (romByte isboxRows) addr n
  | .rcon => readSeq (romByte rconRows) addr n

/-- R47: MemWrite into OBUF, inside its CAP bytes. -/
def memWrite (s : State) (addr : Nat) (v : List Byte) : Option State :=
  if addr + v.length ≤ s.cap then some { s with obuf := Memory.writeBytes s.obuf addr v } else none

/-! ## Errors -/

/-- R176: `raise E`: ERR takes the code, FATAL is set by ConfigError, nothing else changes. There is no handler, no
vector, nothing is saved and nothing returns (R181). -/
def raise (e : CommandError) (s : State) : State :=
  { s with err := e.code, fatal := s.fatal || e.isFatal }

/-- R170 (3), (4), R178: the first failing check, in the order the rule lists them. -/
def firstRaised : List (Bool × CommandError) → Option CommandError
  | [] => none
  | (fails, e) :: rest => if fails then some e else firstRaised rest

/-- R170, R171: how every command runs. Under FATAL it is refused with no change. Otherwise the checks come first; a
failed one raises; only then the effect, all of it. -/
def command (s : State) (checks : List (Bool × CommandError)) (effect : State → Result) : Result :=
  if s.fatal then .next s
  else
    match firstRaised checks with
    | some e => .next (raise e s)
    | none => effect s

/-- R18, R170 (5): a command that completes writes ERR <- 0. -/
def complete (s : State) : Result := .next { s with err := 0 }

/-! ## Input and output -/

/-- The effect `k` on the bytes MemRead gives; a read the spec gives no meaning (R46) stops. -/
def withBytes (space : Space) (addr n : Nat) (k : List Byte → State → Result) (s : State) : Result :=
  match memRead s space addr n with
  | some bs => k bs s
  | none => .fault (.invalidRead space addr n)

/-- `MemWrite(OBUF, 0, n, v) ; OLEN <- n ; ERR <- 0`: the end of every command that produces output. The bytes of OBUF
at indices OLEN and above become unspecified (R24, D25). -/
def deliver (v : List Byte) (s : State) : Result :=
  match memWrite s 0 v with
  | some t => complete { t with olen := BitVec.ofNat 32 v.length, obuf := Memory.below t.obuf v.length }
  | none => .fault (.writeOutside 0 v.length)

/-! ## Free values -/

/-- What an unspecified outcome may depend on. -/
def State.contents (s : State) : Config.Contents := ⟨s.key, s.w, s.smat, s.ibuf, s.obuf⟩

/-- R13, D10: a block command discards the state matrix: SV is cleared and S is unspecified (a free value, log entry 3). -/
def discardState (s : State) : State :=
  { s with sv := false, smat := Config.discardedState s.draws s.contents, draws := s.draws + 1 }

/-- R145, R147, R152: the result of unpadding `d` is delivered; where the last byte claims more than there is, some at
most CAP bytes are (a free value, log entry 4). -/
def deliverUnpadded (d : List Byte) (s : State) : Result :=
  match unpad d with
  | some m => deliver m s
  | none =>
    deliver ((Config.unpadUnderflow s.draws s.cap s.contents d).take s.cap) { s with draws := s.draws + 1 }

end Sys2Proof.Machine
end

