-- ==== Sys2Proof/Machine/Operands.lean ====
section
/-! DEFINITION. The operand forms of the commands (spec/30_encoding.md R65): a byte or an index of the word, and the
implicit operands: the message in IBUF, the one block in IBUF, a round key of W (spec/20_memory.md R45, R46). -/

namespace Sys2Proof.Machine

/-- The length of the message in IBUF. -/
def messageLen (s : State) : Nat := s.ilen.toNat

/-- R46: the whole message `IBUF[0..ILEN−1]`. -/
def withMessage (k : List Byte → State → Result) (s : State) : Result :=
  withBytes .ibuf 0 (messageLen s) k s

/-- R45: the one block `IBUF[0..15]`. -/
def withBlock (k : Block → State → Result) (s : State) : Result :=
  withBytes .ibuf 0 16 (fun bs t => k (blockOfBytes bs) t) s

/-- R45: ILEN is not exactly 16. -/
def notOneBlock (s : State) : Bool := s.ilen != 16#32

/-- R64: the round number of RDRK and ARK; the commands use it only after the range check. -/
def roundIndex (idx : BitVec 4) : Fin 11 := Fin.ofNat 11 idx.toNat

/-- R70: the index of RDRK or ARK is outside 0..10. -/
def badRound (idx : BitVec 4) : Bool := decide (10 < idx.toNat)

/-- R70: the index of RCON is outside 0..9. -/
def badRcon (idx : BitVec 4) : Bool := decide (9 < idx.toNat)

/-- R105, R121: the round key a command's index names. -/
def roundKeyOperand (idx : BitVec 4) (s : State) : Block := roundKey s.w (roundIndex idx)

/-- R144, R146: the padded message does not fit OBUF. -/
def paddedTooLong (s : State) : Bool := decide (s.cap < messageLen s + padLen (messageLen s))

end Sys2Proof.Machine
end

