-- ==== Sys2Proof/Machine/BlockCommands.lean ====
section
/-! DEFINITION. The block-cipher commands ENCB and DECB (spec/44_block_cipher.md R132, R133). -/

namespace Sys2Proof.Machine

/-- R132, R133: one block of the input through `f`, under W; S is used as scratch and discarded. -/
def blockCommand (f : Block → Schedule → Block) (s : State) : Result :=
  command s [(!s.rkv, .sequence), (notOneBlock s, .format)]
    (withBlock fun b t => deliver (blockToBytes (f b t.w)) (discardState t))

/-- R132: `OBUF[0..15] <- encryptBlock(IBUF[0..15], W)`, OLEN <- 16, SV <- 0. -/
def execEncb (s : State) : Result := blockCommand encryptBlock s

/-- R133: `OBUF[0..15] <- decryptBlock(IBUF[0..15], W)`, OLEN <- 16, SV <- 0. -/
def execDecb (s : State) : Result := blockCommand decryptBlock s

end Sys2Proof.Machine
end

