-- ==== Sys2Proof/Machine/EcbCommands.lean ====
section
/-! DEFINITION. The padding and ECB commands PAD, UNPAD, ECBE, ECBD (spec/45_padding_ecb.md R144 to R147). -/

namespace Sys2Proof.Machine

/-- R144: `OBUF <- pad(IBUF[0..ILEN−1])`, OLEN <- the padded length; CapacityError where that exceeds CAP. -/
def execPad (s : State) : Result :=
  command s [(paddedTooLong s, .capacity)] (withMessage fun m t => deliver (pad m) t)

/-- R145: the message with the count its last byte gives stripped; FormatError on the empty message. -/
def execUnpad (s : State) : Result :=
  command s [(messageLen s == 0, .format)] (withMessage fun d t => deliverUnpadded d t)

/-- R146, R147: the schedule is recomputed from KEY at every call (R107). -/
def expandKey (s : State) : State := { s with w := keyExpand s.key, rkv := true }

/-- R146: the message padded and encrypted block by block; W and RKV written, S discarded. -/
def execEcbe (s : State) : Result :=
  command s [(!s.kv, .sequence), (paddedTooLong s, .capacity)]
    (withMessage fun m t =>
      let t := expandKey t
      deliver (ecbEncode m t.w) (discardState t))

/-- R147: the message decrypted block by block and unpadded; W and RKV written, S discarded. FormatError where the
length is not a positive multiple of 16. -/
def execEcbd (s : State) : Result :=
  command s [(!s.kv, .sequence), (messageLen s % 16 != 0, .format), (messageLen s == 0, .format)]
    (withMessage fun c t =>
      let t := expandKey t
      deliverUnpadded (ecbDecryptBlocks c t.w) (discardState t))

end Sys2Proof.Machine
end

