-- ==== Sys2Proof/Machine/GfCommands.lean ====
section
/-! DEFINITION. The GF(2^8) commands GFDBL and GFMUL (spec/40_gf_arithmetic.md R82, R83). -/

namespace Sys2Proof.Machine

/-- R82: `OBUF[0] <- double(a)`, OLEN <- 1. -/
def execGfdbl (a : Byte) (s : State) : Result := command s [] (deliver [double a])

/-- R83: `OBUF[0] <- multiply(a, b)`, OLEN <- 1. -/
def execGfmul (a b : Byte) (s : State) : Result := command s [] (deliver [multiply a b])

end Sys2Proof.Machine
end

