-- ==== Sys2Proof/Machine/KeyCommands.lean ====
section
/-! DEFINITION. The key-schedule commands LDKEY, KEXP, RDRK (spec/42_key_schedule.md R103 to R105). -/

namespace Sys2Proof.Machine

/-- R103: KEY from the input, once per reset; a length other than 16 is the fatal ConfigError (R172). -/
def execLdkey (s : State) : Result :=
  command s [(s.kv, .sequence), (notOneBlock s, .config)]
    (withBlock fun k t => complete { t with key := k, kv := true })

/-- R104: `W[0..43] <- keyExpand(KEY)`, RKV <- 1. -/
def execKexp (s : State) : Result :=
  command s [(!s.kv, .sequence)] fun t => complete { t with w := keyExpand t.key, rkv := true }

/-- R105: `OBUF[0..15] <- roundKey(idx)`, OLEN <- 16. -/
def execRdrk (idx : BitVec 4) (s : State) : Result :=
  command s [(badRound idx, .illegalCommand), (!s.rkv, .sequence)] fun t =>
    deliver (blockToBytes (roundKeyOperand idx t)) t

end Sys2Proof.Machine
end

