-- ==== Sys2Proof/Machine/StateCommands.lean ====
section
/-! DEFINITION. The state-transform commands (spec/43_state_transform.md R119 to R128). -/

namespace Sys2Proof.Machine

/-- R119: S from the input block, SV <- 1. -/
def execLdst (s : State) : Result :=
  command s [(notOneBlock s, .format)] (withBlock fun b t => complete { t with smat := bytesToState b, sv := true })

/-- R120: `OBUF[0..15] <- stateToBytes(S)`, OLEN <- 16; S and SV are kept. -/
def execStst (s : State) : Result :=
  command s [(!s.sv, .sequence)] fun t => deliver (blockToBytes (stateToBytes t.smat)) t

/-- R122 to R127: a transform of S that needs only SV. -/
def transformState (f : Mat → Mat) (s : State) : Result :=
  command s [(!s.sv, .sequence)] fun t => complete { t with smat := f t.smat }

/-- R121: `S <- addRoundKey(S, roundKey(idx))`; it needs SV and RKV. -/
def execArk (idx : BitVec 4) (s : State) : Result :=
  command s [(badRound idx, .illegalCommand), (!(s.sv && s.rkv), .sequence)] fun t =>
    complete { t with smat := addRoundKey t.smat (roundKeyOperand idx t) }

/-- R122: `S <- subBytes(S)`. -/
def execSubb (s : State) : Result := transformState subBytes s

/-- R123: `S <- invSubBytes(S)`. -/
def execIsubb (s : State) : Result := transformState invSubBytes s

/-- R124: `S <- shiftRows(S)`. -/
def execShrow (s : State) : Result := transformState shiftRows s

/-- R125: `S <- invShiftRows(S)`. -/
def execIshrow (s : State) : Result := transformState invShiftRows s

/-- R126: `S <- mixColumns(S)`. -/
def execMixc (s : State) : Result := transformState mixColumns s

/-- R127: `S <- invMixColumns(S)`. -/
def execImixc (s : State) : Result := transformState invMixColumns s

end Sys2Proof.Machine
end

