-- ==== Sys2Proof/Machine/System.lean ====
section
/-! DEFINITION. The system command NOP (spec/46_system.md R160, R161). -/

namespace Sys2Proof.Machine

/-- R160: `ERR <- 0`. -/
def execNop (s : State) : Result := command s [] complete

end Sys2Proof.Machine
end

