-- ==== Sys2Proof/Machine/TableCommands.lean ====
section
/-! DEFINITION. The table commands SBOX, ISBOX, RCON (spec/41_constant_tables.md R93 to R95). -/

namespace Sys2Proof.Machine

/-- R93: `OBUF[0] <- SBOX[a]`, OLEN <- 1. -/
def execSbox (a : Byte) (s : State) : Result := command s [] (withBytes .sbox a.toNat 1 deliver)

/-- R94: `OBUF[0] <- ISBOX[a]`, OLEN <- 1. -/
def execIsbox (a : Byte) (s : State) : Result := command s [] (withBytes .isbox a.toNat 1 deliver)

/-- R95: `OBUF[0] <- RCON[idx]`, OLEN <- 1; an index outside 0..9 is IllegalCommand (R70). -/
def execRcon (idx : BitVec 4) (s : State) : Result :=
  command s [(badRcon idx, .illegalCommand)] (withBytes .rcon idx.toNat 1 deliver)

end Sys2Proof.Machine
end

