-- ==== Sys2Proof/Machine/Dispatch.lean ====
section
/-! DEFINITION. The dispatch: one arm per command, one direct call of its meaning (spec/30_encoding.md R67). -/

namespace Sys2Proof.Machine

/-- R66 (4), R170 (3) to (5): the effect of a decoded command. -/
def exec (i : Instr) (s : State) : Host.Outcome State Fault Refusal :=
  match i with
  | .nop => Sys2Proof.Machine.execNop s
  | .gfdbl a => Sys2Proof.Machine.execGfdbl a s
  | .gfmul a b => Sys2Proof.Machine.execGfmul a b s
  | .sbox a => Sys2Proof.Machine.execSbox a s
  | .isbox a => Sys2Proof.Machine.execIsbox a s
  | .rcon idx => Sys2Proof.Machine.execRcon idx s
  | .ldkey => Sys2Proof.Machine.execLdkey s
  | .kexp => Sys2Proof.Machine.execKexp s
  | .rdrk idx => Sys2Proof.Machine.execRdrk idx s
  | .ldst => Sys2Proof.Machine.execLdst s
  | .stst => Sys2Proof.Machine.execStst s
  | .ark idx => Sys2Proof.Machine.execArk idx s
  | .subb => Sys2Proof.Machine.execSubb s
  | .isubb => Sys2Proof.Machine.execIsubb s
  | .shrow => Sys2Proof.Machine.execShrow s
  | .ishrow => Sys2Proof.Machine.execIshrow s
  | .mixc => Sys2Proof.Machine.execMixc s
  | .imixc => Sys2Proof.Machine.execImixc s
  | .encb => Sys2Proof.Machine.execEncb s
  | .decb => Sys2Proof.Machine.execDecb s
  | .pad => Sys2Proof.Machine.execPad s
  | .unpad => Sys2Proof.Machine.execUnpad s
  | .ecbe => Sys2Proof.Machine.execEcbe s
  | .ecbd => Sys2Proof.Machine.execEcbd s

end Sys2Proof.Machine
end

