-- ==== Sys2Proof/Machine/HostPort.lean ====
section
/-! DEFINITION. The transactions of HOST at the port (spec/20_memory.md R48 to R52, spec/10_state.md R19 to R22,
spec/70_reset_and_hazards.md R200). Each one is atomic and they are totally ordered (R55). -/

namespace Sys2Proof.Machine

/-- R48: the message goes to IBUF and its length to ILEN; the rest of IBUF becomes unspecified; nothing else changes, in
every state. A message longer than CAP cannot be presented. -/
def hostPutInput (m : List Byte) (s : State) : Result :=
  if m.length ≤ s.cap then
    .next { s with
      ibuf := Memory.below (Memory.writeBytes s.ibuf 0 m) m.length
      ilen := BitVec.ofNat 32 m.length }
  else .refused (.messageTooLong m.length)

/-- R49, R170: a command word. Under FATAL it is refused with no change, decodable or not (R171); a reserved word raises
IllegalCommand (R175); any other is executed to completion. -/
def hostIssue (cw : Word32) (s : State) : Result :=
  if s.fatal then .next s
  else
    match decode cw with
    | .error _ => .next (raise .illegalCommand s)
    | .ok i => exec i s

/-- R50: `OBUF[0..OLEN−1]` goes to HOST; no state of the core changes. -/
def hostGetOutput (s : State) : Result :=
  match memRead s .obuf 0 s.olen.toNat with
  | some bs => .next { s with reply := .bytes bs }
  | none => .fault (.invalidRead .obuf 0 s.olen.toNat)

/-- R51: the value of a port register goes to HOST; no state of the core changes. -/
def hostReadReg (n : Nat) (s : State) : Result := .next { s with reply := .word (portRegister s n) }

/-- R22: a write to register 0 is HostIssue; a write to any other register is ignored (R19 to R22, D4; log entry 8). -/
def hostWriteReg (n : Nat) (v : Word32) (s : State) : Result :=
  if n = 0 then hostIssue v s else .next s

/-- R52, R200: the reset state, from every state; what KEY, W and S hold is unspecified (a free value, log entry 2). The
transactions HOST has yet to make are no state of the core and stay. -/
def hostReset (s : State) : Result :=
  .next { State.resetWith s.cap (s.draws + 1) (Config.afterReset s.draws s.contents) with host := s.host }

/-- R6: one transaction. -/
def perform (x : Transaction) (s : State) : Result :=
  match x with
  | .put m => hostPutInput m s
  | .issue cw => hostIssue cw s
  | .getOutput => hostGetOutput s
  | .readReg n => hostReadReg n s
  | .writeReg n v => hostWriteReg n v s
  | .reset => hostReset s

/-- The transaction is taken from HOST's list; nothing has been returned yet. -/
def State.taken (s : State) (rest : List Transaction) : State := { s with host := rest, reply := .none }

/-- R6, R55, R191: HOST's next transaction is performed on the state the one before it left. With none waiting the core
is idle and keeps all its state. -/
def hostStep (s : State) : Result :=
  match s.host with
  | [] => .next s
  | x :: rest => perform x (s.taken rest)

/-- HOST's next transaction is the issue of the command word `cw`; its other transactions come after it. -/
def State.issueNext (s : State) (cw : Word32) : State := { s with host := .issue cw :: s.host }

end Sys2Proof.Machine
end

