-- ==== Sys2Proof/Machine/Step.lean ====
section
/-! DEFINITION. One step of the machine: one transaction of HOST (spec/00_scope.md R6). There is no program counter and
no instruction memory (spec/10_state.md R26): the next command is the next one HOST issues. -/

namespace Sys2Proof.Machine

/-- R6, R55: one step. -/
def step (s : State) : Host.Outcome State Fault Refusal := hostStep s

/-- The state in which HOST's very next transaction issues the command word of the opcode-table row whose bits are `w`
(R22, R49). This is how a command reaches the machine: log entry 7. -/
def State.withFetchWord (s : State) (nbits w : Nat) : State := s.issueNext (tableWord nbits w)

end Sys2Proof.Machine
end

