-- ==== Sys2Proof/Machine/Instances.lean ====
section
/-! DEFINITION. Several instances of the hardware (spec/10_state.md R31, spec/60_exceptions.md R189): each has its own
copy of every register, flag and buffer, and they share only the constant tables. -/

namespace Sys2Proof.Machine

/-- R31: one step of instance `k`. "No step of one instance reads or writes another." -/
def stepInstance (k : Nat) (instances : List State) : Host.Outcome (List State) Fault Refusal :=
  match instances[k]? with
  | none => .next instances
  | some s =>
    match step s with
    | .next t => .next (instances.set k t)
    | .fault f => .fault f
    | .refused r => .refused r

end Sys2Proof.Machine
end

