-- ==== Sys2Proof/Safety.lean ====
section
/-! DEFINITION. What counts as a sound state and a good run, in the words the statements use
(spec/10_state.md R29, spec/70_reset_and_hazards.md R209). -/

namespace Sys2Proof.Machine

/-- The buffer whose bytes at indices 0 to `v.length − 1` are `v` and whose other bytes hold no value. -/
def Memory.ofBytes (v : List Byte) : Memory := Memory.writeBytes [] 0 v

/-- A buffer with `len` valid bytes: in canonical form, indices 0 to `len−1` hold a value and no other does
(R23, R24). -/
structure Memory.Holds (m : Memory) (len : Nat) : Prop where
  wf : Memory.wf m
  valid : ∀ a, a < len → (Memory.read1 m a).isSome = true
  bounded : ∀ c ∈ m, c.1 < len

/-- R29 and R18: what every reachable state satisfies. -/
structure State.Inv (s : State) : Prop where
  /-- R5: CAP is a multiple of 16 with 32 ≤ CAP ≤ 2^31 − 16. -/
  cap_admissible : Config.AdmissibleCap s.cap
  /-- R29: 0 ≤ ILEN ≤ CAP. -/
  ilen_le_cap : s.ilen.toNat ≤ s.cap
  /-- R29: 0 ≤ OLEN ≤ CAP. -/
  olen_le_cap : s.olen.toNat ≤ s.cap
  /-- R23: IBUF holds exactly its valid bytes. -/
  ibuf_holds : Memory.Holds s.ibuf s.ilen.toNat
  /-- R24: OBUF holds exactly its valid bytes. -/
  obuf_holds : Memory.Holds s.obuf s.olen.toNat
  /-- R18: "codes 6 to 15 never occur". -/
  err_is_code : s.err.toNat ≤ 5
  /-- R15, R29: RKV = 1 exactly when W holds the schedule of KEY, and it implies KV = 1. -/
  rkv_schedule : s.rkv = true → s.kv = true ∧ s.w = keyExpand s.key
  /-- R29: FATAL = 1 implies KV = 0. -/
  fatal_no_key : s.fatal = true → s.kv = false
  /-- R17, R29: FATAL = 1 implies ERR = 1, and only ConfigError, which sets FATAL, leaves ERR = 1. -/
  fatal_iff_config : s.fatal = true ↔ s.err = 1

/-- A sound state in which a command is executed and not refused: FATAL = 0 (R170, R171). -/
structure State.Running (s : State) : Prop where
  inv : s.Inv
  not_fatal : s.fatal = false

/-- IBUF holds the message `m`: `IBUF[0..ILEN−1] = m` (R23). -/
def State.Input (s : State) (m : List Byte) : Prop := memRead s .ibuf 0 s.ilen.toNat = some m

/-- The state that differs from `s` in that OBUF holds `v`, OLEN is its length and ERR is 0: the end of a command that
produces `v` (R21, R24). -/
def State.withOutput (s : State) (v : List Byte) : State :=
  { s with obuf := Memory.ofBytes v, olen := BitVec.ofNat 32 v.length, err := 0 }

/-! ## When a command raises -/

/-- R173: a register the command needs holds no value, or LDKEY finds a key loaded. -/
def sequenceFails (i : Instr) (s : State) : Bool :=
  match i with
  | .ldkey => s.kv
  | .kexp | .ecbe | .ecbd => !s.kv
  | .rdrk _ | .encb | .decb => !s.rkv
  | .ark _ => !s.sv || !s.rkv
  | .stst | .subb | .isubb | .shrow | .ishrow | .mixc | .imixc => !s.sv
  | .nop | .gfdbl _ | .gfmul _ _ | .sbox _ | .isbox _ | .rcon _ | .ldst | .pad | .unpad => false

/-- R174: the input has a length the command cannot take. -/
def formatFails (i : Instr) (s : State) : Bool :=
  match i with
  | .ldst | .encb | .decb => decide (s.ilen.toNat ≠ 16)
  | .unpad => decide (s.ilen.toNat = 0)
  | .ecbd => decide (s.ilen.toNat % 16 ≠ 0 ∨ s.ilen.toNat = 0)
  | .nop | .gfdbl _ | .gfmul _ _ | .sbox _ | .isbox _ | .rcon _ | .ldkey | .kexp | .rdrk _ | .stst | .ark _
  | .subb | .isubb | .shrow | .ishrow | .mixc | .imixc | .pad | .ecbe => false

/-! ## Frames: what stays the same between two states -/

/-- The data registers, the valid bits, FATAL and CAP are the same. -/
structure SameRegisters (s t : State) : Prop where
  cap : t.cap = s.cap
  key : t.key = s.key
  w : t.w = s.w
  smat : t.smat = s.smat
  kv : t.kv = s.kv
  rkv : t.rkv = s.rkv
  sv : t.sv = s.sv
  fatal : t.fatal = s.fatal

/-- ILEN and every byte of IBUF are the same, and so is HOST's side of the port. -/
structure SameInput (s t : State) : Prop where
  ilen : t.ilen = s.ilen
  ibuf : ∀ a, Memory.read1 t.ibuf a = Memory.read1 s.ibuf a
  host : t.host = s.host
  reply : t.reply = s.reply

/-- OLEN and every byte of OBUF are the same. -/
structure SameOutput (s t : State) : Prop where
  olen : t.olen = s.olen
  obuf : ∀ a, Memory.read1 t.obuf a = Memory.read1 s.obuf a

/-- R32: the commands that write OBUF and OLEN and no register. -/
def writesOutputOnly : Instr → Bool
  | .gfdbl _ | .gfmul _ _ | .sbox _ | .isbox _ | .rcon _ | .rdrk _ | .stst | .pad | .unpad => true
  | .nop | .ldkey | .kexp | .ldst | .ark _ | .subb | .isubb | .shrow | .ishrow | .mixc | .imixc
  | .encb | .decb | .ecbe | .ecbd => false

/-- R32: the commands that write registers and no buffer. -/
def writesRegistersOnly : Instr → Bool
  | .nop | .ldkey | .kexp | .ldst | .ark _ | .subb | .isubb | .shrow | .ishrow | .mixc | .imixc => true
  | .gfdbl _ | .gfmul _ _ | .sbox _ | .isbox _ | .rcon _ | .rdrk _ | .stst | .pad | .unpad
  | .encb | .decb | .ecbe | .ecbd => false

/-- R32: the commands that write the state matrix by a transform, or load it. -/
def writesState : Instr → Bool
  | .ldst | .ark _ | .subb | .isubb | .shrow | .ishrow | .mixc | .imixc => true
  | .nop | .ldkey | .kexp | .gfdbl _ | .gfmul _ _ | .sbox _ | .isbox _ | .rcon _ | .rdrk _ | .stst | .pad | .unpad
  | .encb | .decb | .ecbe | .ecbd => false

/-- R32: the commands that use the state matrix as scratch and write OBUF. -/
def discardsState : Instr → Bool
  | .encb | .decb | .ecbe | .ecbd => true
  | .nop | .ldkey | .kexp | .gfdbl _ | .gfmul _ _ | .sbox _ | .isbox _ | .rcon _ | .rdrk _ | .stst | .pad | .unpad
  | .ldst | .ark _ | .subb | .isubb | .shrow | .ishrow | .mixc | .imixc => false

/-! ## Runs -/

/-- R209: "a good final state when FATAL = 0 and the ERR left by the last command is 0". -/
def State.Good (s : State) : Prop := s.fatal = false ∧ s.err = 0

end Sys2Proof.Machine
end

