-- ==== Sys2Proof/Certificates/Slice0/Obligations.lean ====
section
/-! DEFINITION. The statements for the provers. Each docstring names the rule of spec/ it formalises. `State.Running`
is a sound state (`State.Inv`) with FATAL = 0; `s.Input m` says that IBUF holds the message `m`; `s.withOutput v` is `s`
with OBUF holding exactly `v`, OLEN its length and ERR 0, every other field as in `s`. Where a result holds an
unspecified value the statement says "there is some value": it never names the free value. -/

open Sys2Proof Sys2Proof.Machine

/-! ## Encoding (spec/30_encoding.md) -/

/-- R60 to R67: every well-formed command, with every operand, decodes from its own word. -/
def Obligations.EveryWellFormedCommandDecodesFromItsWord : Prop :=
  ∀ i : Instr, i.wellFormed = true → decode (encode i) = .ok i

/-- R66, R71: a word that decodes is the word of the command it names, and that command is well formed. -/
def Obligations.DecodedWordIsTheWordOfItsCommand : Prop :=
  ∀ (cw : Word32) (i : Instr), decode cw = .ok i → i.wellFormed = true ∧ encode i = cw

/-- R75: the decoder is the opcode table read by match, mask and index range: a row selects a word exactly when the word
decodes to a command of that row, and a word that no row selects is rejected. "The masks are chosen so that no two rows
match the same word." -/
def Obligations.DecoderIsTheOpcodeTable : Prop :=
  (∀ cw : Word32,
    (∀ row ∈ opcodeTable, row.selects cw = true ↔ ∃ i, decode cw = .ok i ∧ i.mnemonic = row.mnemonic) ∧
    ((∀ row ∈ opcodeTable, row.selects cw = false) ↔ ∃ e, decode cw = .error e)) ∧
  (∀ (cw : Word32) (r₁ r₂ : OpcodeRow), r₁ ∈ opcodeTable → r₂ ∈ opcodeTable →
    cw &&& r₁.mask = r₁.pattern → cw &&& r₂.mask = r₂.pattern → r₁ = r₂)

/-- R68: the 232 opcodes outside the map: the word raises IllegalCommand (ERR = 3) and changes nothing but ERR. -/
def Obligations.ReservedOpcodeRaisesIllegalCommand : Prop :=
  ∀ (s : State) (cw : Word32), s.fatal = false →
    opField cw ∉ ([0x00, 0x10, 0x11, 0x20, 0x21, 0x22, 0x30, 0x31, 0x32, 0x40, 0x41, 0x42, 0x43, 0x44, 0x45, 0x46,
      0x47, 0x48, 0x50, 0x51, 0x60, 0x61, 0x62, 0x63] : List Byte) →
    hostIssue cw s = .next { s with err := 3 }

/-- R69: a zero field that is not zero, for each of the four formats: the word raises IllegalCommand. -/
def Obligations.NonZeroZeroFieldRaisesIllegalCommand : Prop :=
  ∀ (s : State) (cw : Word32), s.fatal = false →
    (opField cw ∈ ([0x00, 0x30, 0x31, 0x40, 0x41, 0x43, 0x44, 0x45, 0x46, 0x47, 0x48, 0x50, 0x51, 0x60, 0x61, 0x62,
        0x63] : List Byte) ∧ cw.extractLsb' 0 24 ≠ 0) ∨
      (opField cw ∈ ([0x10, 0x20, 0x21] : List Byte) ∧ cw.extractLsb' 8 16 ≠ 0) ∨
      (opField cw = 0x11 ∧ cw.extractLsb' 16 8 ≠ 0) ∨
      (opField cw ∈ ([0x22, 0x32, 0x42] : List Byte) ∧ cw.extractLsb' 4 20 ≠ 0) →
    hostIssue cw s = .next { s with err := 3 }

/-- R70: a format I index outside its range: the word raises IllegalCommand. -/
def Obligations.IndexOutOfRangeRaisesIllegalCommand : Prop :=
  ∀ (s : State), s.fatal = false →
    (∀ cw : Word32, (opField cw = 0x32 ∨ opField cw = 0x42) → 11 ≤ (cw.extractLsb' 0 4).toNat →
      hostIssue cw s = .next { s with err := 3 }) ∧
    (∀ cw : Word32, opField cw = 0x22 → 10 ≤ (cw.extractLsb' 0 4).toNat → hostIssue cw s = .next { s with err := 3 })

/-- R73: the example words of the assembler syntax decode to the commands they stand for. -/
def Obligations.ExampleWordsDecode : Prop :=
  decode 0x00000000 = .ok .nop ∧ decode 0x10000057 = .ok (.gfdbl 0x57) ∧
  decode 0x11005783 = .ok (.gfmul 0x57 0x83) ∧ decode 0x20000053 = .ok (.sbox 0x53) ∧
  decode 0x22000009 = .ok (.rcon 9) ∧ decode 0x3200000A = .ok (.rdrk 10) ∧
  decode 0x42000000 = .ok (.ark 0) ∧ decode 0x62000000 = .ok .ecbe

/-! ## A step, and the port (spec/20_memory.md, spec/60_exceptions.md R170, R171) -/

/-- R170, R66: when HOST's next transaction issues a word that decodes to `i`, the step is `exec i` on the state from
which that transaction has been taken (host list advanced, no reply yet): nothing else is added. A write to CMD is the
same transaction (R22). With no transaction waiting the core is idle (R191). -/
def Obligations.StepRunsTheDecodedCommand : Prop :=
  (∀ (s : State) (cw : Word32) (rest : List Transaction) (i : Instr),
    s.host = .issue cw :: rest ∨ s.host = .writeReg 0 cw :: rest → s.fatal = false → decode cw = .ok i →
    step s = exec i { s with host := rest, reply := .none }) ∧
  (∀ s : State, s.host = [] → step s = .next s)

/-- R171: while FATAL = 1 every command word, decodable or not, and every command changes no state whatever; the other
transactions still work; only HostReset leaves the condition. -/
def Obligations.FatalRefusesEveryCommand : Prop :=
  ∀ s : State, s.Inv → s.fatal = true →
    (∀ cw, hostIssue cw s = .next s) ∧
    (∀ i, exec i s = .next s) ∧
    s.err = 1 ∧
    (∀ m : List Byte, m.length ≤ s.cap → ∃ t, hostPutInput m s = .next t ∧ t.Input m) ∧
    (∃ t, hostGetOutput s = .next t) ∧
    (∀ n, ∃ t, hostReadReg n s = .next t) ∧
    (∀ x t, perform x s = .next t → t.fatal = false → x = .reset)

/-- R48: HostPutInput: byte `i` of IBUF becomes byte `i` of the message, ILEN its length, the bytes at and above it hold
no value, and nothing else changes; a message longer than CAP cannot be presented. -/
def Obligations.PutInputWritesTheMessage : Prop :=
  (∀ (s : State) (m : List Byte), s.Inv → m.length ≤ s.cap →
    ∃ t, hostPutInput m s = .next t ∧
      t = { s with ibuf := t.ibuf, ilen := t.ilen } ∧ t.ilen.toNat = m.length ∧ t.Input m ∧
      ∀ a, Memory.read1 t.ibuf a = m[a]?) ∧
  (∀ (s : State) (m : List Byte), s.cap < m.length → hostPutInput m s = .refused (.messageTooLong m.length))

/-- R50: HostGetOutput returns `OBUF[0..OLEN−1]` and changes no state of the core. -/
def Obligations.GetOutputReturnsTheValidBytes : Prop :=
  ∀ s : State, s.Inv →
    ∃ bs : List Byte, hostGetOutput s = .next { s with reply := .bytes bs } ∧ bs.length = s.olen.toNat ∧
      ∀ k, k < s.olen.toNat → bs[k]? = Memory.read1 s.obuf k

/-- R51, R19: HostReadReg changes no state of the core: register 0 reads zero, 1 is STATUS with its fields at their bits,
2 is ILEN, 3 is OLEN, any other reads zero. -/
def Obligations.ReadRegReturnsThePortRegister : Prop :=
  ∀ s : State,
    hostReadReg 0 s = .next { s with reply := .word 0 } ∧
    hostReadReg 2 s = .next { s with reply := .word s.ilen } ∧
    hostReadReg 3 s = .next { s with reply := .word s.olen } ∧
    (∀ n, 4 ≤ n → hostReadReg n s = .next { s with reply := .word 0 }) ∧
    ∃ v : Word32, hostReadReg 1 s = .next { s with reply := .word v } ∧
      v.getLsbD 0 = s.kv ∧ v.getLsbD 1 = s.rkv ∧ v.getLsbD 2 = s.sv ∧ v.getLsbD 3 = s.fatal ∧
      v.extractLsb' 4 4 = s.err ∧ v.extractLsb' 8 24 = 0

/-- R19, R20, R21, R22: a HOST write to a register other than CMD is ignored; that it is ignored for ILEN too is read from
R20 and D4 (log entry 8). -/
def Obligations.WriteToOtherRegistersIsIgnored : Prop :=
  ∀ (s : State) (n : Nat) (v : Word32), n ≠ 0 → hostWriteReg n v s = .next s

/-- R200: HostReset, from every state: every flag, ERR, ILEN and OLEN is 0 and no byte of a buffer holds a value; KEY, W
and S are some value. CAP is kept, and the transactions HOST has yet to make (log entry 7). -/
def Obligations.HostResetGivesTheResetState : Prop :=
  ∀ s : State, ∃ (k : Block) (w : Schedule) (m : Mat) (d : Nat),
    hostReset s = .next
      { cap := s.cap, key := k, w := w, smat := m, kv := false, rkv := false, sv := false, fatal := false, err := 0,
        ilen := 0, olen := 0, ibuf := [], obuf := [], draws := d, host := s.host, reply := .none }

/-- R31: a step of one instance leaves every other instance as it is, and is the step that instance alone takes. -/
def Obligations.InstancesDoNotInteract : Prop :=
  ∀ (k : Nat) (xs ys : List State), stepInstance k xs = .next ys →
    ys.length = xs.length ∧ (∀ j, j ≠ k → ys[j]? = xs[j]?) ∧
    (∀ s, xs[k]? = some s → ∃ t, step s = .next t ∧ ys[k]? = some t)

/-! ## System command (spec/46_system.md) -/

/-- R160: NOP writes ERR <- 0 and nothing else; under FATAL it is refused; a word with opcode 0 and a bit set below is no
NOP. -/
def Obligations.NopClearsErr : Prop :=
  decode 0x00000000 = .ok .nop ∧
  (∀ s : State, s.fatal = false → exec .nop s = .next { s with err := 0 }) ∧
  (∀ s : State, s.fatal = true → exec .nop s = .next s) ∧
  (∀ (s : State) (cw : Word32), s.fatal = false → opField cw = 0x00 → cw.extractLsb' 0 24 ≠ 0 →
    hostIssue cw s = .next { s with err := 3 })

/-! ## GF(2^8) (spec/40_gf_arithmetic.md) -/

/-- R82, R80: GFDBL delivers the doubled byte: shifted left, reduced by 0x1b where the high bit was set; doubling is a
bijection on bytes. A word with a bit of 23:8 set raises IllegalCommand; under FATAL the command is refused. -/
def Obligations.GfdblDeliversTheDoubledByte : Prop :=
  (∀ (s : State) (a : Byte), s.Running → exec (.gfdbl a) s = .next (s.withOutput [double a])) ∧
  (∀ a : Byte, (double a).toNat = if a.toNat < 128 then 2 * a.toNat else (2 * a.toNat - 256) ^^^ 0x1b) ∧
  Function.Bijective double ∧
  (∀ a : Byte, decode ((0x10 : Byte) ++ (0 : BitVec 16) ++ a) = .ok (.gfdbl a)) ∧
  (∀ (s : State) (z : BitVec 16) (a : Byte), s.fatal = false → z ≠ 0 →
    hostIssue ((0x10 : Byte) ++ z ++ a) s = .next { s with err := 3 }) ∧
  (∀ (s : State) (a : Byte), s.fatal = true → exec (.gfdbl a) s = .next s)

/-- R83, R81: GFMUL delivers the product: the sum of the doubled copies of `a` that the bits of `b` select. A word
with a bit of 23:16 set raises IllegalCommand; under FATAL the command is refused. -/
def Obligations.GfmulDeliversTheProduct : Prop :=
  (∀ (s : State) (a b : Byte), s.Running → exec (.gfmul a b) s = .next (s.withOutput [multiply a b])) ∧
  (∀ a b : Byte, multiply a b =
    ((List.range 8).map fun i => if b.getLsbD i then double^[i] a else 0).foldl (· ^^^ ·) 0) ∧
  (∀ a b : Byte, decode ((0x11 : Byte) ++ (0 : BitVec 8) ++ a ++ b) = .ok (.gfmul a b)) ∧
  (∀ (s : State) (z : BitVec 8) (a b : Byte), s.fatal = false → z ≠ 0 →
    hostIssue ((0x11 : Byte) ++ z ++ a ++ b) s = .next { s with err := 3 }) ∧
  (∀ (s : State) (a b : Byte), s.fatal = true → exec (.gfmul a b) s = .next s)

/-- R84: multiply is commutative and distributes over XOR; it is associative, every non-zero byte has exactly one inverse,
and multiplying by 0x02 is doubling. -/
def Obligations.MultiplyLaws : Prop :=
  (∀ a b : Byte, multiply a b = multiply b a) ∧
  (∀ a b c : Byte, multiply a (b ^^^ c) = multiply a b ^^^ multiply a c) ∧
  (∀ a b c : Byte, multiply (multiply a b) c = multiply a (multiply b c)) ∧
  (∀ a : Byte, a ≠ 0 → ∃ b, multiply a b = 1 ∧ ∀ c, multiply a c = 1 → c = b) ∧
  (∀ a : Byte, multiply a 0x02 = double a)

/-! ## Constant tables (spec/41_constant_tables.md) -/

/-- R93, R94, R95: the table commands deliver the entry that stands in row `i / 16`, column `i % 16` of the table. A word
with a bit of the zero field set, or with an RCON index above 9, raises IllegalCommand; under FATAL they are refused.
The entries are those of log entry 5. -/
def Obligations.TableCommandsDeliverTheEntry : Prop :=
  (∀ s : State, s.Running →
    (∀ a : Byte, ∃ v, exec (.sbox a) s = .next (s.withOutput [v]) ∧
      (sboxRows.getD (a.toNat / 16) [])[a.toNat % 16]? = some v ∧ v = sbox a) ∧
    (∀ a : Byte, ∃ v, exec (.isbox a) s = .next (s.withOutput [v]) ∧
      (isboxRows.getD (a.toNat / 16) [])[a.toNat % 16]? = some v ∧ v = isbox a) ∧
    (∀ idx : BitVec 4, idx.toNat ≤ 9 → ∃ v, exec (.rcon idx) s = .next (s.withOutput [v]) ∧
      ([0x01, 0x02, 0x04, 0x08, 0x10, 0x20, 0x40, 0x80, 0x1b, 0x36] : List Byte)[idx.toNat]? = some v)) ∧
  (∀ a : Byte, decode ((0x20 : Byte) ++ (0 : BitVec 16) ++ a) = .ok (.sbox a) ∧
    decode ((0x21 : Byte) ++ (0 : BitVec 16) ++ a) = .ok (.isbox a)) ∧
  (∀ idx : BitVec 4, idx.toNat ≤ 9 → decode ((0x22 : Byte) ++ (0 : BitVec 20) ++ idx) = .ok (.rcon idx)) ∧
  (∀ (s : State) (z : BitVec 16) (a : Byte), s.fatal = false → z ≠ 0 →
    hostIssue ((0x20 : Byte) ++ z ++ a) s = .next { s with err := 3 } ∧
    hostIssue ((0x21 : Byte) ++ z ++ a) s = .next { s with err := 3 }) ∧
  (∀ (s : State) (z : BitVec 20) (idx : BitVec 4), s.fatal = false → z ≠ 0 ∨ 10 ≤ idx.toNat →
    hostIssue ((0x22 : Byte) ++ z ++ idx) s = .next { s with err := 3 }) ∧
  (∀ (s : State) (a : Byte) (idx : BitVec 4), s.fatal = true →
    exec (.sbox a) s = .next s ∧ exec (.isbox a) s = .next s ∧ exec (.rcon idx) s = .next s)

/-- R96: the two tables are inverse to each other, and SBOX has no fixed point and no `b` with `SBOX[b] = b ^ 0xff`. It is
about the entries of log entry 5, which are PRESUMED (the spec's general knowledge); R96 marks the last clause as derived
from them by inspection, not stated by the source. -/
def Obligations.SboxAndIsboxAreInverse : Prop :=
  (∀ b : Byte, isbox (sbox b) = b) ∧ (∀ b : Byte, sbox (isbox b) = b) ∧
  (∀ b : Byte, sbox b ≠ b ∧ sbox b ≠ b ^^^ 0xff)

/-- R90, R92: the generating formula of SBOX over the model's own multiply, and RCON as successive doublings of 0x01 (the
tables' entries are the spec's general knowledge, log entry 5). -/
def Obligations.TablesFollowTheirFormulas : Prop :=
  (∀ x y : Byte, (x = 0 ∧ y = 0) ∨ multiply x y = 0x01 →
    sbox x = y ^^^ y.rotateLeft 1 ^^^ y.rotateLeft 2 ^^^ y.rotateLeft 3 ^^^ y.rotateLeft 4 ^^^ 0x63) ∧
  (rcon 0 = 0x01 ∧ ∀ k, k < 9 → rcon (k + 1) = double (rcon k))

/-! ## Key schedule (spec/42_key_schedule.md) -/

/-- R103: LDKEY: the 16 bytes of the input become KEY and KV is set; a second load raises SequenceError whatever ILEN is;
another length raises the fatal ConfigError. -/
def Obligations.LdkeyLoadsTheKeyOnce : Prop :=
  (∀ (s : State) (m : List Byte), s.Running → s.kv = false → s.Input m → m.length = 16 →
    ∃ k : Block, exec .ldkey s = .next { s with key := k, kv := true, err := 0 } ∧
      ∀ j : Fin 16, m[j.val]? = some (k.byte j)) ∧
  (∀ s : State, s.fatal = false → s.kv = true → exec .ldkey s = .next { s with err := 4 }) ∧
  (∀ s : State, s.fatal = false → s.kv = false → s.ilen ≠ 16 →
    exec .ldkey s = .next { s with err := 1, fatal := true }) ∧
  decode 0x30000000 = .ok .ldkey

/-- R104: KEXP writes the schedule of KEY and sets RKV; without a key it raises SequenceError. -/
def Obligations.KexpWritesTheSchedule : Prop :=
  (∀ s : State, s.fatal = false → s.kv = true →
    exec .kexp s = .next { s with w := keyExpand s.key, rkv := true, err := 0 }) ∧
  (∀ s : State, s.fatal = false → s.kv = false → exec .kexp s = .next { s with err := 4 }) ∧
  decode 0x31000000 = .ok .kexp

/-- R101: the 44 words: the first four are the key's groups; word `i` from 4 on is `w[i-4] XOR temp`, where `temp` is
`w[i-1]`, rotated, substituted and with the round constant in its first byte when `i % 4 = 0`. -/
def Obligations.KeyExpandFollowsTheRecurrence : Prop :=
  ∀ k : Block,
    (∀ i : Fin 4, (keyExpand k).get ⟨i.val, by omega⟩ = k.word i) ∧
    (∀ i : Nat, (h : 4 ≤ i ∧ i < 44) → ∀ t : Word, t = (keyExpand k).get ⟨i - 1, by omega⟩ →
      (keyExpand k).get ⟨i, by omega⟩ =
        ((keyExpand k).get ⟨i - 4, by omega⟩).xor
          (if i % 4 = 0 then ⟨sbox t.b1 ^^^ rcon (i / 4 - 1), sbox t.b2, sbox t.b3, sbox t.b0⟩ else t))

/-- R105, R102: RDRK delivers the 16 bytes of round key `idx`, byte `k` being `W[4·idx + k/4][k % 4]`; in a sound state
round key 0 is the key; without round keys it raises SequenceError. A word with a bit of 23:4 set or an index above 10
raises IllegalCommand. -/
def Obligations.RdrkDeliversTheRoundKey : Prop :=
  (∀ (s : State) (idx : BitVec 4) (_ : s.Running) (_ : s.rkv = true) (h : idx.toNat ≤ 10),
    ∃ v : List Byte, exec (.rdrk idx) s = .next (s.withOutput v) ∧ v.length = 16 ∧
      (∀ k : Fin 16, v[k.val]? =
        some ((s.w.get ⟨4 * idx.toNat + k.val / 4, by omega⟩).byte ⟨k.val % 4, by omega⟩)) ∧
      (idx = 0 → ∀ k : Fin 16, v[k.val]? = some (s.key.byte k))) ∧
  (∀ (s : State) (idx : BitVec 4), s.fatal = false → s.rkv = false → idx.toNat ≤ 10 →
    exec (.rdrk idx) s = .next { s with err := 4 }) ∧
  (∀ idx : BitVec 4, idx.toNat ≤ 10 → decode ((0x32 : Byte) ++ (0 : BitVec 20) ++ idx) = .ok (.rdrk idx)) ∧
  (∀ (s : State) (z : BitVec 20) (idx : BitVec 4), s.fatal = false → z ≠ 0 ∨ 11 ≤ idx.toNat →
    hostIssue ((0x32 : Byte) ++ z ++ idx) s = .next { s with err := 3 })

/-! ## State transforms (spec/43_state_transform.md) -/

/-- R119, R110: LDST: `S[r][c]` becomes byte `4c + r` of the input block, SV is set; another length raises FormatError. -/
def Obligations.LdstLoadsTheState : Prop :=
  (∀ (s : State) (m : List Byte), s.Running → s.Input m → m.length = 16 →
    ∃ x : Mat, exec .ldst s = .next { s with smat := x, sv := true, err := 0 } ∧
      ∀ r c : Fin 4, m[4 * c.val + r.val]? = some (x.get r c)) ∧
  (∀ s : State, s.fatal = false → s.ilen ≠ 16 → exec .ldst s = .next { s with err := 2 }) ∧
  decode 0x40000000 = .ok .ldst

/-- R120, R111: STST delivers the 16 bytes of S, column by column, and keeps S; without a state it raises
SequenceError. -/
def Obligations.StstDeliversTheState : Prop :=
  (∀ s : State, s.Running → s.sv = true →
    ∃ v : List Byte, exec .stst s = .next (s.withOutput v) ∧ v.length = 16 ∧
      ∀ r c : Fin 4, v[4 * c.val + r.val]? = some (s.smat.get r c)) ∧
  (∀ s : State, s.fatal = false → s.sv = false → exec .stst s = .next { s with err := 4 }) ∧
  decode 0x41000000 = .ok .stst

/-- R121, R112: ARK: each byte of S is XORed with byte `4c + r` of round key `idx`; without a state or without round keys it
raises SequenceError. A word with a bit of 23:4 set or an index above 10 raises IllegalCommand. -/
def Obligations.ArkAddsTheRoundKey : Prop :=
  (∀ (s : State) (idx : BitVec 4) (_ : s.fatal = false) (_ : s.sv = true) (_ : s.rkv = true) (h : idx.toNat ≤ 10),
    ∃ x : Mat, exec (.ark idx) s = .next { s with smat := x, err := 0 } ∧
      ∀ r c : Fin 4, x.get r c =
        s.smat.get r c ^^^ (s.w.get ⟨4 * idx.toNat + c.val, by omega⟩).byte r) ∧
  (∀ (s : State) (idx : BitVec 4), s.fatal = false → s.sv = false ∨ s.rkv = false → idx.toNat ≤ 10 →
    exec (.ark idx) s = .next { s with err := 4 }) ∧
  (∀ idx : BitVec 4, idx.toNat ≤ 10 → decode ((0x42 : Byte) ++ (0 : BitVec 20) ++ idx) = .ok (.ark idx)) ∧
  (∀ (s : State) (z : BitVec 20) (idx : BitVec 4), s.fatal = false → z ≠ 0 ∨ 11 ≤ idx.toNat →
    hostIssue ((0x42 : Byte) ++ z ++ idx) s = .next { s with err := 3 })

/-- R122, R123, R113, R114: SUBB and ISUBB replace each byte of S by its table entry, at its place; without a
state they raise SequenceError. -/
def Obligations.SubbAndIsubbSubstituteEveryByte : Prop :=
  (∀ s : State, s.fatal = false → s.sv = true →
    (∃ x : Mat, exec .subb s = .next { s with smat := x, err := 0 } ∧ ∀ r c, x.get r c = sbox (s.smat.get r c)) ∧
    (∃ x : Mat, exec .isubb s = .next { s with smat := x, err := 0 } ∧ ∀ r c, x.get r c = isbox (s.smat.get r c))) ∧
  (∀ s : State, s.fatal = false → s.sv = false →
    exec .subb s = .next { s with err := 4 } ∧ exec .isubb s = .next { s with err := 4 }) ∧
  decode 0x43000000 = .ok .subb ∧ decode 0x44000000 = .ok .isubb

/-- R124, R125, R115, R116: SHROW moves row `r` left by `r` columns and ISHROW right by `r`, both around the end;
without a state they raise SequenceError. -/
def Obligations.ShrowAndIshrowRotateTheRows : Prop :=
  (∀ s : State, s.fatal = false → s.sv = true →
    (∃ x : Mat, exec .shrow s = .next { s with smat := x, err := 0 } ∧
      ∀ r c : Fin 4, x.get r c = s.smat.get r ⟨(c.val + r.val) % 4, by omega⟩) ∧
    (∃ x : Mat, exec .ishrow s = .next { s with smat := x, err := 0 } ∧
      ∀ r c : Fin 4, x.get r c = s.smat.get r ⟨(c.val + 4 - r.val) % 4, by omega⟩)) ∧
  (∀ s : State, s.fatal = false → s.sv = false →
    exec .shrow s = .next { s with err := 4 } ∧ exec .ishrow s = .next { s with err := 4 }) ∧
  decode 0x45000000 = .ok .shrow ∧ decode 0x46000000 = .ok .ishrow

/-- R126, R117: MIXC replaces each column by the fixed linear combination of its four old bytes; without a state it
raises SequenceError. -/
def Obligations.MixcMixesEveryColumn : Prop :=
  (∀ s : State, s.fatal = false → s.sv = true →
    ∃ x : Mat, exec .mixc s = .next { s with smat := x, err := 0 } ∧
      ∀ c : Fin 4, ∀ a0 a1 a2 a3 : Byte,
        a0 = s.smat.get 0 c → a1 = s.smat.get 1 c → a2 = s.smat.get 2 c → a3 = s.smat.get 3 c →
        x.get 0 c = multiply 0x02 a0 ^^^ multiply 0x03 a1 ^^^ a2 ^^^ a3 ∧
        x.get 1 c = a0 ^^^ multiply 0x02 a1 ^^^ multiply 0x03 a2 ^^^ a3 ∧
        x.get 2 c = a0 ^^^ a1 ^^^ multiply 0x02 a2 ^^^ multiply 0x03 a3 ∧
        x.get 3 c = multiply 0x03 a0 ^^^ a1 ^^^ a2 ^^^ multiply 0x02 a3) ∧
  (∀ s : State, s.fatal = false → s.sv = false → exec .mixc s = .next { s with err := 4 }) ∧
  decode 0x47000000 = .ok .mixc

/-- R127, R118: IMIXC replaces each column by the combination with the coefficients 14, 11, 13, 9; without a state it
raises SequenceError. The places of the four coefficients are an inference R118 marks as its own (DEDUCED, log entry 9). -/
def Obligations.ImixcMixesEveryColumnBack : Prop :=
  (∀ s : State, s.fatal = false → s.sv = true →
    ∃ x : Mat, exec .imixc s = .next { s with smat := x, err := 0 } ∧
      ∀ c : Fin 4, ∀ a0 a1 a2 a3 : Byte,
        a0 = s.smat.get 0 c → a1 = s.smat.get 1 c → a2 = s.smat.get 2 c → a3 = s.smat.get 3 c →
        x.get 0 c = multiply 0x0e a0 ^^^ multiply 0x0b a1 ^^^ multiply 0x0d a2 ^^^ multiply 0x09 a3 ∧
        x.get 1 c = multiply 0x09 a0 ^^^ multiply 0x0e a1 ^^^ multiply 0x0b a2 ^^^ multiply 0x0d a3 ∧
        x.get 2 c = multiply 0x0d a0 ^^^ multiply 0x09 a1 ^^^ multiply 0x0e a2 ^^^ multiply 0x0b a3 ∧
        x.get 3 c = multiply 0x0b a0 ^^^ multiply 0x0d a1 ^^^ multiply 0x09 a2 ^^^ multiply 0x0e a3) ∧
  (∀ s : State, s.fatal = false → s.sv = false → exec .imixc s = .next { s with err := 4 }) ∧
  decode 0x48000000 = .ok .imixc

/-- R111, R112, R114, R116: the byte serialisation, addRoundKey, the substitutions and the row shifts undo each other, in
both orders. -/
def Obligations.BytewiseTransformsAreInverse : Prop :=
  (∀ b : Block, stateToBytes (bytesToState b) = b) ∧
  (∀ x : Mat, bytesToState (stateToBytes x) = x) ∧
  (∀ (x : Mat) (k : Block), addRoundKey (addRoundKey x k) k = x) ∧
  (∀ x : Mat, invSubBytes (subBytes x) = x ∧ subBytes (invSubBytes x) = x) ∧
  (∀ x : Mat, invShiftRows (shiftRows x) = x ∧ shiftRows (invShiftRows x) = x)

/-- R118, R129: "`invMixColumns(mixColumns(state)) == state` for arbitrary states", and the other way round. -/
def Obligations.InvMixColumnsUndoesMixColumns : Prop :=
  ∀ x : Mat, invMixColumns (mixColumns x) = x ∧ mixColumns (invMixColumns x) = x

/-- R124, R125, R127, R129: four shiftRows, and four mixColumns, restore any state; three shiftRows are one invShiftRows;
subBytes commutes with shiftRows. -/
def Obligations.TransformOrders : Prop :=
  ∀ x : Mat,
    shiftRows (shiftRows (shiftRows (shiftRows x))) = x ∧
    shiftRows (shiftRows (shiftRows x)) = invShiftRows x ∧
    mixColumns (mixColumns (mixColumns (mixColumns x))) = x ∧
    shiftRows (subBytes x) = subBytes (shiftRows x)

/-! ## Block cipher core (spec/44_block_cipher.md) -/

/-- R132, R133: ENCB and DECB deliver the encrypted (decrypted) input block under W; SV is cleared and S is some value;
KEY, KV, W, RKV and the input are kept. R178: without round keys they raise SequenceError, whatever ILEN is; with round
keys and an input that is not 16 bytes FormatError; nothing else changes then. -/
def Obligations.BlockCommandsDeliverTheBlock : Prop :=
  (∀ (s : State) (m : List Byte), s.Running → s.rkv = true → s.Input m → m.length = 16 →
    ∃ (x y : Mat) (d e : Nat),
      exec .encb s = .next ({ s with sv := false, smat := x, draws := d }.withOutput
        (blockToBytes (encryptBlock (blockOfBytes m) s.w))) ∧
      exec .decb s = .next ({ s with sv := false, smat := y, draws := e }.withOutput
        (blockToBytes (decryptBlock (blockOfBytes m) s.w)))) ∧
  (∀ (s : State) (i : Instr), i ∈ [Instr.encb, .decb] → s.fatal = false →
    (s.rkv = false → exec i s = .next { s with err := 4 }) ∧
    (s.rkv = true → s.ilen ≠ 16 → exec i s = .next { s with err := 2 })) ∧
  decode 0x50000000 = .ok .encb ∧ decode 0x51000000 = .ok .decb

/-- R134: `decryptBlock(encryptBlock(b, w), w) == b` and `encryptBlock(decryptBlock(b, w), w) == b` for every block and
every schedule. -/
def Obligations.DecryptBlockInvertsEncryptBlock : Prop :=
  ∀ (b : Block) (w : Schedule),
    decryptBlock (encryptBlock b w) w = b ∧ encryptBlock (decryptBlock b w) w = b

/-- R135: the result of ENCB and DECB depends only on the 16 input bytes and on KEY: two sound states that agree on those,
whatever else they hold, give the same OBUF and OLEN. -/
def Obligations.BlockResultDependsOnInputAndKey : Prop :=
  ∀ (s u : State) (m : List Byte) (i : Instr), i ∈ [Instr.encb, .decb] →
    s.Running → u.Running → s.rkv = true → u.rkv = true → s.key = u.key →
    s.Input m → u.Input m → m.length = 16 →
    ∃ t v, exec i s = .next t ∧ exec i u = .next v ∧ t.obuf = v.obuf ∧ t.olen = v.olen

/-! ## Padding and ECB (spec/45_padding_ecb.md) -/

/-- R140, R148: `padLen` is in 1..16; the padded length is `16·(L/16 + 1)`, a positive multiple of 16; the message comes
first and every padding byte equals `padLen`. R141: "`unpad(pad(m)) == m` for every `m`". -/
def Obligations.PadLaw : Prop :=
  ∀ m : List Byte,
    1 ≤ 16 - m.length % 16 ∧ 16 - m.length % 16 ≤ 16 ∧
    (pad m).length = m.length + (16 - m.length % 16) ∧ (pad m).length = 16 * (m.length / 16 + 1) ∧
    (pad m).take m.length = m ∧
    (∀ k, m.length ≤ k → k < (pad m).length → (pad m)[k]? = some (BitVec.ofNat 8 (16 - m.length % 16))) ∧
    unpad (pad m) = some m

/-- R144, R177: PAD delivers the padded message whenever ILEN ≠ CAP, and raises CapacityError exactly when ILEN = CAP. -/
def Obligations.PadDeliversThePaddedMessage : Prop :=
  (∀ (s : State) (m : List Byte), s.Running → s.Input m → m.length ≠ s.cap →
    exec .pad s = .next (s.withOutput (pad m))) ∧
  (∀ s : State, s.Running → s.ilen.toNat = s.cap → exec .pad s = .next { s with err := 5 }) ∧
  decode 0x60000000 = .ok .pad

/-- R145: UNPAD strips as many bytes as the last byte says, 0 and 17 to 255 included, and looks at no other byte. Where the
last byte claims more bytes than there are (R152) it ends with ERR = 0 and some output of at most CAP bytes, and changes
nothing else. The empty message raises FormatError. -/
def Obligations.UnpadStripsTheCountOfTheLastByte : Prop :=
  (∀ (s : State) (m : List Byte) (count : Byte), s.Running → s.Input m → m.getLast? = some count →
    count.toNat ≤ m.length → exec .unpad s = .next (s.withOutput (m.take (m.length - count.toNat)))) ∧
  (∀ (s : State) (m : List Byte) (count : Byte), s.Running → s.Input m → m.getLast? = some count →
    m.length < count.toNat →
    ∃ (v : List Byte) (d : Nat), v.length ≤ s.cap ∧ exec .unpad s = .next ({ s with draws := d }.withOutput v)) ∧
  (∀ s : State, s.fatal = false → s.ilen = 0 → exec .unpad s = .next { s with err := 2 }) ∧
  decode 0x61000000 = .ok .unpad

/-- R146: ECBE delivers the padded message encrypted block by block under the schedule of KEY, of length
`L + (16 − L % 16)`; RKV is set, SV cleared, S is some value. Without a key SequenceError; with ILEN = CAP
CapacityError, W and RKV unchanged. -/
def Obligations.EcbeDeliversTheCiphertext : Prop :=
  (∀ (s : State) (m : List Byte), s.Running → s.kv = true → s.Input m → m.length ≠ s.cap →
    ∃ (v : List Byte) (x : Mat) (d : Nat),
      exec .ecbe s = .next ({ s with w := keyExpand s.key, rkv := true, sv := false, smat := x, draws := d }.withOutput v) ∧
      v = ecbEncode m (keyExpand s.key) ∧ v.length = m.length + (16 - m.length % 16)) ∧
  (∀ s : State, s.fatal = false → s.kv = false → exec .ecbe s = .next { s with err := 4 }) ∧
  (∀ s : State, s.Running → s.kv = true → s.ilen.toNat = s.cap → exec .ecbe s = .next { s with err := 5 }) ∧
  decode 0x62000000 = .ok .ecbe

/-- R147: ECBD delivers the decrypted blocks less the count of their last byte; RKV is set, SV cleared, S is some value.
Where that byte claims more than there is (R152) some output of at most CAP bytes is delivered, all else being the same.
Without a key SequenceError, whatever the length; a length that is 0 or no multiple of 16 is FormatError. -/
def Obligations.EcbdDeliversThePlaintext : Prop :=
  (∀ (s : State) (c d : List Byte) (count : Byte), s.Running → s.kv = true → s.Input c → c.length % 16 = 0 →
    d = ecbDecryptBlocks c (keyExpand s.key) → d.getLast? = some count → count.toNat ≤ c.length →
    ∃ (x : Mat) (n : Nat),
      exec .ecbd s = .next ({ s with w := keyExpand s.key, rkv := true, sv := false, smat := x, draws := n }.withOutput
        (d.take (c.length - count.toNat)))) ∧
  (∀ (s : State) (c : List Byte) (count : Byte), s.Running → s.kv = true → s.Input c → c.length % 16 = 0 →
    (ecbDecryptBlocks c (keyExpand s.key)).getLast? = some count → c.length < count.toNat →
    ∃ (v : List Byte) (x : Mat) (n : Nat), v.length ≤ s.cap ∧
      exec .ecbd s =
        .next ({ s with w := keyExpand s.key, rkv := true, sv := false, smat := x, draws := n }.withOutput v)) ∧
  (∀ s : State, s.fatal = false → s.kv = false → exec .ecbd s = .next { s with err := 4 }) ∧
  (∀ s : State, s.fatal = false → s.kv = true → s.ilen.toNat % 16 ≠ 0 ∨ s.ilen = 0 →
    exec .ecbd s = .next { s with err := 2 }) ∧
  decode 0x63000000 = .ok .ecbd

/-- R142, R150: the ciphertext is as long as the padded message; block `b` of the ciphertext is the encryption of block `b` of the padded message and depends on nothing
else, so equal plaintext blocks, in one message or in two, give equal ciphertext blocks. -/
def Obligations.EcbBlocksAreEncryptedIndependently : Prop :=
  (∀ (m : List Byte) (w : Schedule), (ecbEncode m w).length = m.length + (16 - m.length % 16)) ∧
  (∀ (m : List Byte) (w : Schedule) (b : Nat), 16 * b < (pad m).length →
    ((ecbEncode m w).drop (16 * b)).take 16 =
      blockToBytes (encryptBlock (blockOfBytes (((pad m).drop (16 * b)).take 16)) w)) ∧
  (∀ (m n : List Byte) (w : Schedule) (b c : Nat), 16 * b + 16 ≤ m.length → 16 * c + 16 ≤ n.length →
    (m.drop (16 * b)).take 16 = (n.drop (16 * c)).take 16 →
    ((ecbEncode m w).drop (16 * b)).take 16 = ((ecbEncode n w).drop (16 * c)).take 16)

/-- R149: "for all byte strings `m` of length 0..N, `decrypt(encrypt(m)) == m`", N being CAP − 1: from every sound state with
a key loaded, whatever HOST was going to do, the run PUT m; ECBE; GET returns some `c`, the run PUT c; ECBD; GET after it
returns `m`, and both runs end in a good state (R209: FATAL = 0 and ERR = 0). -/
def Obligations.DecryptAfterEncryptReturnsTheMessage : Prop :=
  ∀ (s : State) (m : List Byte), s.Running → s.kv = true → m.length < s.cap →
    ∃ (t u : State) (c : List Byte),
      core.run 3 { s with host := [.put m, .issue 0x62000000, .getOutput] } = .next t ∧
      t.reply = .bytes c ∧ t.Good ∧
      core.run 3 { t with host := [.put c, .issue 0x63000000, .getOutput] } = .next u ∧
      u.reply = .bytes m ∧ u.Good

/-! ## Errors and rules about the whole machine -/

/-- R183, R176: a command that raises, and a word that does, has no effect except on ERR and, for ConfigError, FATAL, in
every state; the code is one of 1 to 5. -/
def Obligations.RaisingChangesOnlyErrAndFatal : Prop :=
  (∀ (i : Instr) (s t : State), exec i s = .next t → s.fatal = false → t.err ≠ 0 →
    t = { s with err := t.err, fatal := decide (t.err = 1) } ∧ t.err.toNat ≤ 5) ∧
  (∀ (cw : Word32) (s t : State), hostIssue cw s = .next t → s.fatal = false → t.err ≠ 0 →
    t = { s with err := t.err, fatal := decide (t.err = 1) } ∧ t.err.toNat ≤ 5)

/-- R173: a command raises SequenceError exactly when a register it needs holds no value, or LDKEY finds a key loaded,
whatever the input is (R178); ERR is then the only change. -/
def Obligations.SequenceErrorRule : Prop :=
  ∀ (i : Instr) (s : State), i.wellFormed = true → s.fatal = false →
    (sequenceFails i s = true → exec i s = .next { s with err := 4 }) ∧
    (∀ t, exec i s = .next t → t.err = 4 → sequenceFails i s = true)

/-- R174: a command raises FormatError exactly when it needs no missing register and its input has a length it cannot
take; ERR is then the only change. -/
def Obligations.FormatErrorRule : Prop :=
  ∀ (i : Instr) (s : State), s.fatal = false →
    (sequenceFails i s = false → formatFails i s = true → exec i s = .next { s with err := 2 }) ∧
    (∀ t, exec i s = .next t → t.err = 2 → sequenceFails i s = false ∧ formatFails i s = true)

/-- R11, R14: KEY is immutable: only LDKEY, with no key loaded, changes KEY or KV, and it sets KV; no transaction but
HostReset changes them once KV = 1. -/
def Obligations.KeyIsWrittenOnceByLdkey : Prop :=
  (∀ (i : Instr) (s t : State), exec i s = .next t → t.key ≠ s.key ∨ t.kv ≠ s.kv →
    i = .ldkey ∧ s.kv = false ∧ t.kv = true ∧ t.err = 0) ∧
  (∀ (x : Transaction) (s t : State), perform x s = .next t → s.kv = true → x ≠ .reset →
    t.key = s.key ∧ t.kv = true)

/-- R172: ConfigError is raised by LDKEY alone, exactly when no key is loaded and ILEN is not 16; it is the only error that
sets FATAL; ERR and FATAL are its only changes. -/
def Obligations.OnlyConfigErrorSetsFatal : Prop :=
  (∀ s : State, s.fatal = false → s.kv = false → s.ilen ≠ 16 → exec .ldkey s = .next { s with err := 1, fatal := true }) ∧
  (∀ (i : Instr) (s t : State), exec i s = .next t → s.fatal = false → t.err = 1 ∨ t.fatal = true →
    i = .ldkey ∧ s.kv = false ∧ s.ilen ≠ 16 ∧ t = { s with err := 1, fatal := true })

/-- R12, R15: only the key expansion (KEXP, ECBE, ECBD) changes W or RKV, as a whole and to the schedule of KEY, with a
key loaded; no transaction but HostReset clears RKV. -/
def Obligations.ScheduleIsWrittenOnlyByTheKeyExpansion : Prop :=
  (∀ (i : Instr) (s t : State), exec i s = .next t → t.w ≠ s.w ∨ t.rkv ≠ s.rkv →
    i ∈ [Instr.kexp, .ecbe, .ecbd] ∧ s.kv = true ∧ t.rkv = true ∧ t.w = keyExpand s.key) ∧
  (∀ (x : Transaction) (s t : State), perform x s = .next t → s.rkv = true → x ≠ .reset → t.rkv = true)

/-- R16: SV is set only by LDST and cleared only by ENCB, DECB, ECBE, ECBD, each on success. -/
def Obligations.StateValidBitRule : Prop :=
  ∀ (i : Instr) (s t : State), exec i s = .next t →
    (s.sv = false → t.sv = true → i = .ldst ∧ t.err = 0) ∧
    (s.sv = true → t.sv = false → discardsState i = true ∧ t.err = 0) ∧
    (s.fatal = false → discardsState i = true → t.err = 0 → t.sv = false)

/-- R32: the frame of the commands that produce output: no register, no valid bit and no byte of IBUF changes. On an error
OLEN and every byte of OBUF are as before; on success the bytes stored are those at indices 0 to OLEN−1, and every byte
of OBUF above them holds no value (R24). -/
def Obligations.FrameOfOutputCommands : Prop :=
  ∀ (i : Instr) (s t : State), writesOutputOnly i = true → s.Running → exec i s = .next t →
    SameRegisters s t ∧ SameInput s t ∧
    (t.err ≠ 0 → SameOutput s t) ∧
    (t.err = 0 → ∀ a, t.olen.toNat ≤ a → Memory.read1 t.obuf a = none) ∧
    (i ≠ .unpad → t.draws = s.draws)

/-- R32: the frame of the commands that write registers: every byte of IBUF and OBUF and both lengths are as before, in
every state, and only the registers each command's rule names change. -/
def Obligations.FrameOfRegisterCommands : Prop :=
  ∀ (i : Instr) (s t : State), writesRegistersOnly i = true → exec i s = .next t →
    SameInput s t ∧ SameOutput s t ∧ t.cap = s.cap ∧ t.draws = s.draws ∧
    (i ≠ .ldkey → t.key = s.key ∧ t.kv = s.kv ∧ t.fatal = s.fatal) ∧
    (i ≠ .kexp → t.w = s.w ∧ t.rkv = s.rkv) ∧
    (writesState i = false → t.smat = s.smat) ∧
    (i ≠ .ldst → t.sv = s.sv)

/-- R32: the frame of the block and ECB commands: KEY, KV, FATAL, CAP and every byte of IBUF are as before; ENCB and DECB
keep W and RKV; on an error every register and every byte of OBUF is as before; on success every byte of OBUF above the
stored ones holds no value. -/
def Obligations.FrameOfBlockCommands : Prop :=
  ∀ (i : Instr) (s t : State), discardsState i = true → s.Running → exec i s = .next t →
    t.key = s.key ∧ t.kv = s.kv ∧ t.fatal = s.fatal ∧ t.cap = s.cap ∧ SameInput s t ∧
    (i = .encb ∨ i = .decb → t.w = s.w ∧ t.rkv = s.rkv) ∧
    (t.err ≠ 0 → SameRegisters s t ∧ SameOutput s t ∧ t.draws = s.draws) ∧
    (t.err = 0 → ∀ a, t.olen.toNat ≤ a → Memory.read1 t.obuf a = none)

/-- R207: every command ends: in a sound state every command answers a next state, and so does every step, but for a
message longer than CAP, which R48 gives HOST no way to present. -/
def Obligations.NoCommandHangsOrFaults : Prop :=
  ∀ s : State, s.Inv →
    (∀ i : Instr, ∃ t, exec i s = .next t) ∧
    ((∃ t, step s = .next t) ∨
      ∃ m rest, s.host = .put m :: rest ∧ s.cap < m.length ∧ step s = .refused (.messageTooLong m.length))

/-- R29 (with R14 to R24): every step keeps the invariant of sound states. -/
def Obligations.EveryStepKeepsTheInvariant : Prop :=
  ∀ s t : State, s.Inv → step s = .next t → t.Inv

/-- R207, R29: a run of any length from a sound state, in which HOST presents no message longer than CAP, neither faults nor
is refused, and every state of it is sound. -/
def Obligations.RunsNeverStop : Prop :=
  ∀ (k : Nat) (s : State), s.Inv → (∀ m, Transaction.put m ∈ s.host → m.length ≤ s.cap) →
    ∃ t, core.run k s = .next t ∧ t.Inv

/-- R30, R29: the reset state, of every admissible capacity and whatever KEY, W and S hold, is sound, and so is
`State.reset` (whose capacity is the model's choice, log entry 1). -/
def Obligations.ResetStateIsSound : Prop :=
  (∀ (cap draws : Nat) (left : Config.Contents), Config.AdmissibleCap cap → (State.resetWith cap draws left).Inv) ∧
  State.reset.Inv
end

