-- ==== Sys2Proof/Laws/Data.lean ====
section
/-! SUPPORT. The small lemmas of the data types: a matrix and a block are their bytes, and the lengths of byte sequences. -/

namespace Sys2Proof

@[simp] theorem Word.byte_ofFn (f : Fin 4 → Byte) (j : Fin 4) : (Word.ofFn f).byte j = f j := by
  fin_cases j <;> rfl

theorem Word.ext_byte {v w : Word} (h : ∀ j, v.byte j = w.byte j) : v = w := by
  obtain ⟨v0, v1, v2, v3⟩ := v
  obtain ⟨w0, w1, w2, w3⟩ := w
  have h0 : v0 = w0 := h 0
  have h1 : v1 = w1 := h 1
  have h2 : v2 = w2 := h 2
  have h3 : v3 = w3 := h 3
  simp [h0, h1, h2, h3]

@[simp] theorem Mat.col_ofCols (f : Fin 4 → Word) (c : Fin 4) : (Mat.ofCols f).col c = f c := by
  fin_cases c <;> rfl

@[simp] theorem Mat.get_ofFn (f : Fin 4 → Fin 4 → Byte) (r c : Fin 4) : (Mat.ofFn f).get r c = f r c := by
  simp [Mat.get, Mat.ofFn]

theorem Mat.ext_get {m n : Mat} (h : ∀ r c, m.get r c = n.get r c) : m = n := by
  have hc : ∀ c, m.col c = n.col c := fun c => Word.ext_byte fun r => h r c
  obtain ⟨m0, m1, m2, m3⟩ := m
  obtain ⟨n0, n1, n2, n3⟩ := n
  have h0 : m0 = n0 := hc 0
  have h1 : m1 = n1 := hc 1
  have h2 : m2 = n2 := hc 2
  have h3 : m3 = n3 := hc 3
  simp [h0, h1, h2, h3]

@[simp] theorem Block.byte_ofFn (f : Fin 16 → Byte) (k : Fin 16) : (Block.ofFn f).byte k = f k := by
  fin_cases k <;> rfl

theorem Block.ext_byte {a b : Block} (h : ∀ k, a.byte k = b.byte k) : a = b := by
  obtain ⟨⟨a0, a1, a2, a3⟩, ⟨a4, a5, a6, a7⟩, ⟨a8, a9, a10, a11⟩, ⟨a12, a13, a14, a15⟩⟩ := a
  obtain ⟨⟨b0, b1, b2, b3⟩, ⟨b4, b5, b6, b7⟩, ⟨b8, b9, b10, b11⟩, ⟨b12, b13, b14, b15⟩⟩ := b
  have e0 : a0 = b0 := h 0
  have e1 : a1 = b1 := h 1
  have e2 : a2 = b2 := h 2
  have e3 : a3 = b3 := h 3
  have e4 : a4 = b4 := h 4
  have e5 : a5 = b5 := h 5
  have e6 : a6 = b6 := h 6
  have e7 : a7 = b7 := h 7
  have e8 : a8 = b8 := h 8
  have e9 : a9 = b9 := h 9
  have e10 : a10 = b10 := h 10
  have e11 : a11 = b11 := h 11
  have e12 : a12 = b12 := h 12
  have e13 : a13 = b13 := h 13
  have e14 : a14 = b14 := h 14
  have e15 : a15 = b15 := h 15
  simp [e0, e1, e2, e3, e4, e5, e6, e7, e8, e9, e10, e11, e12, e13, e14, e15]

namespace Machine

@[simp] theorem blockToBytes_length (b : Block) : (blockToBytes b).length = 16 := rfl

theorem blockToBytes_getElem (b : Block) (k : Fin 16) : (blockToBytes b)[k.val]? = some (b.byte k) := by
  fin_cases k <;> rfl

theorem blockOfBytes_byte (bs : List Byte) (k : Fin 16) : (blockOfBytes bs).byte k = bs.getD k.val 0 := by
  simp [blockOfBytes]

/-- A block read back from its bytes is the block. -/
@[simp] theorem blockOfBytes_blockToBytes (b : Block) : blockOfBytes (blockToBytes b) = b :=
  Block.ext_byte fun k => by rw [blockOfBytes_byte]; fin_cases k <;> rfl

/-- 16 bytes come back from the block made of them. -/
theorem blockToBytes_blockOfBytes {bs : List Byte} (h : bs.length = 16) : blockToBytes (blockOfBytes bs) = bs := by
  refine List.ext_getElem? fun k => ?_
  by_cases hk : k < 16
  · rw [show k = (⟨k, hk⟩ : Fin 16).val from rfl, blockToBytes_getElem, blockOfBytes_byte]
    simp [List.getD, show k < bs.length by omega]
  · simp [show (16 : Nat) ≤ k by omega, show bs.length ≤ k by omega]

@[simp] theorem splitBlocks_length (n : Nat) (bs : List Byte) : (splitBlocks n bs).length = n := by
  induction n generalizing bs with
  | zero => rfl
  | succ n ih => simp [splitBlocks, ih]

@[simp] theorem joinBlocks_nil : joinBlocks [] = [] := rfl

@[simp] theorem joinBlocks_cons (b : Block) (bs : List Block) :
    joinBlocks (b :: bs) = blockToBytes b ++ joinBlocks bs := rfl

@[simp] theorem joinBlocks_length (bs : List Block) : (joinBlocks bs).length = 16 * bs.length := by
  induction bs with
  | nil => rfl
  | cons b bs ih => simp [ih]; omega

theorem padLen_bounds (n : Nat) : 1 ≤ padLen n ∧ padLen n ≤ 16 := by
  unfold padLen; omega

/-- R140: the padded length. -/
theorem pad_length (m : List Byte) : (pad m).length = 16 * (m.length / 16 + 1) := by
  simp [pad, padLen]; omega

/-- R148: the length of ECBE's result. -/
theorem ecbEncode_length (m : List Byte) (w : Schedule) : (ecbEncode m w).length = 16 * (m.length / 16 + 1) := by
  simp [ecbEncode, pad_length]

theorem ecbDecryptBlocks_length (c : List Byte) (w : Schedule) :
    (ecbDecryptBlocks c w).length = 16 * (c.length / 16) := by
  simp [ecbDecryptBlocks]

end Machine
end Sys2Proof
end

