-- ==== Sys2Proof/Laws/Decode.lean ====
section
/-! SUPPORT. The fields of an assembled word, a word reassembled from its fields, and the decoder opcode by opcode. -/

namespace Sys2Proof

/-! ## The fields of an assembled word (R60 to R65) -/

section Fields

variable (op a b : Byte) (zn : BitVec 24) (za : BitVec 16) (zb : BitVec 8) (zi : BitVec 20) (idx : BitVec 4)

@[simp] theorem opField_formatN : opField (op ++ zn) = op := by
  apply BitVec.eq_of_getLsbD_eq; intro i hi
  rw [opField, BitVec.getLsbD_extractLsb', BitVec.getLsbD_append, if_neg (by omega), show 24 + i - 24 = i by omega]
  simp [hi]

@[simp] theorem zeroN_formatN : zeroN (op ++ zn) = zn := by
  apply BitVec.eq_of_getLsbD_eq; intro i hi
  rw [zeroN, BitVec.getLsbD_extractLsb', BitVec.getLsbD_append, if_pos (by omega), show 0 + i = i by omega]
  simp [hi]

@[simp] theorem opField_formatA : opField (op ++ za ++ a) = op := by
  apply BitVec.eq_of_getLsbD_eq; intro i hi
  rw [opField, BitVec.getLsbD_extractLsb', BitVec.getLsbD_append, if_neg (by omega), BitVec.getLsbD_append,
    if_neg (by omega), show 24 + i - 8 - 16 = i by omega]
  simp [hi]

@[simp] theorem zeroA_formatA : zeroA (op ++ za ++ a) = za := by
  apply BitVec.eq_of_getLsbD_eq; intro i hi
  rw [zeroA, BitVec.getLsbD_extractLsb', BitVec.getLsbD_append, if_neg (by omega), BitVec.getLsbD_append,
    if_pos (by omega), show 8 + i - 8 = i by omega]
  simp [hi]

@[simp] theorem lowByte_formatA : lowByte (op ++ za ++ a) = a := by
  apply BitVec.eq_of_getLsbD_eq; intro i hi
  rw [lowByte, BitVec.getLsbD_extractLsb', BitVec.getLsbD_append, if_pos (by omega), show 0 + i = i by omega]
  simp [hi]

@[simp] theorem opField_formatB : opField (op ++ zb ++ a ++ b) = op := by
  apply BitVec.eq_of_getLsbD_eq; intro i hi
  rw [opField, BitVec.getLsbD_extractLsb', BitVec.getLsbD_append, if_neg (by omega), BitVec.getLsbD_append,
    if_neg (by omega), BitVec.getLsbD_append, if_neg (by omega), show 24 + i - 8 - 8 - 8 = i by omega]
  simp [hi]

@[simp] theorem zeroB_formatB : zeroB (op ++ zb ++ a ++ b) = zb := by
  apply BitVec.eq_of_getLsbD_eq; intro i hi
  rw [zeroB, BitVec.getLsbD_extractLsb', BitVec.getLsbD_append, if_neg (by omega), BitVec.getLsbD_append,
    if_neg (by omega), BitVec.getLsbD_append, if_pos (by omega), show 16 + i - 8 - 8 = i by omega]
  simp [hi]

@[simp] theorem secondByte_formatB : secondByte (op ++ zb ++ a ++ b) = a := by
  apply BitVec.eq_of_getLsbD_eq; intro i hi
  rw [secondByte, BitVec.getLsbD_extractLsb', BitVec.getLsbD_append, if_neg (by omega), BitVec.getLsbD_append,
    if_pos (by omega), show 8 + i - 8 = i by omega]
  simp [hi]

@[simp] theorem lowByte_formatB : lowByte (op ++ zb ++ a ++ b) = b := by
  apply BitVec.eq_of_getLsbD_eq; intro i hi
  rw [lowByte, BitVec.getLsbD_extractLsb', BitVec.getLsbD_append, if_pos (by omega), show 0 + i = i by omega]
  simp [hi]

@[simp] theorem opField_formatI : opField (op ++ zi ++ idx) = op := by
  apply BitVec.eq_of_getLsbD_eq; intro i hi
  rw [opField, BitVec.getLsbD_extractLsb', BitVec.getLsbD_append, if_neg (by omega), BitVec.getLsbD_append,
    if_neg (by omega), show 24 + i - 4 - 20 = i by omega]
  simp [hi]

@[simp] theorem zeroI_formatI : zeroI (op ++ zi ++ idx) = zi := by
  apply BitVec.eq_of_getLsbD_eq; intro i hi
  rw [zeroI, BitVec.getLsbD_extractLsb', BitVec.getLsbD_append, if_neg (by omega), BitVec.getLsbD_append,
    if_pos (by omega), show 4 + i - 4 = i by omega]
  simp [hi]

@[simp] theorem idxField_formatI : idxField (op ++ zi ++ idx) = idx := by
  apply BitVec.eq_of_getLsbD_eq; intro i hi
  rw [idxField, BitVec.getLsbD_extractLsb', BitVec.getLsbD_append, if_pos (by omega), show 0 + i = i by omega]
  simp [hi]

end Fields

/-! ## A word is its fields -/

theorem word_of_fieldsN (cw : Word32) : opField cw ++ zeroN cw = cw := by
  apply BitVec.eq_of_getLsbD_eq; intro i hi
  rw [BitVec.getLsbD_append]
  split
  · next h => simp [zeroN, h]
  · next h =>
    simp only [opField, BitVec.getLsbD_extractLsb', show i - 24 < 8 by omega, decide_true, Bool.true_and]
    congr 1; omega

theorem word_of_fieldsA (cw : Word32) : opField cw ++ zeroA cw ++ lowByte cw = cw := by
  apply BitVec.eq_of_getLsbD_eq; intro i hi
  rw [BitVec.getLsbD_append]
  split
  · next h => simp [lowByte, h]
  · next h =>
    rw [BitVec.getLsbD_append]
    split
    · next h' =>
      simp only [zeroA, BitVec.getLsbD_extractLsb', h', decide_true, Bool.true_and]
      congr 1; omega
    · next h' =>
      simp only [opField, BitVec.getLsbD_extractLsb', show i - 8 - 16 < 8 by omega, decide_true, Bool.true_and]
      congr 1; omega

theorem word_of_fieldsB (cw : Word32) : opField cw ++ zeroB cw ++ secondByte cw ++ lowByte cw = cw := by
  apply BitVec.eq_of_getLsbD_eq; intro i hi
  rw [BitVec.getLsbD_append]
  split
  · next h => simp [lowByte, h]
  · next h =>
    rw [BitVec.getLsbD_append]
    split
    · next h' =>
      simp only [secondByte, BitVec.getLsbD_extractLsb', h', decide_true, Bool.true_and]
      congr 1; omega
    · next h' =>
      rw [BitVec.getLsbD_append]
      split
      · next h2 =>
        simp only [zeroB, BitVec.getLsbD_extractLsb', h2, decide_true, Bool.true_and]
        congr 1; omega
      · next h2 =>
        simp only [opField, BitVec.getLsbD_extractLsb', show i - 8 - 8 - 8 < 8 by omega, decide_true, Bool.true_and]
        congr 1; omega

theorem word_of_fieldsI (cw : Word32) : opField cw ++ zeroI cw ++ idxField cw = cw := by
  apply BitVec.eq_of_getLsbD_eq; intro i hi
  rw [BitVec.getLsbD_append]
  split
  · next h => simp [idxField, h]
  · next h =>
    rw [BitVec.getLsbD_append]
    split
    · next h' =>
      simp only [zeroI, BitVec.getLsbD_extractLsb', h', decide_true, Bool.true_and]
      congr 1; omega
    · next h' =>
      simp only [opField, BitVec.getLsbD_extractLsb', show i - 4 - 20 < 8 by omega, decide_true, Bool.true_and]
      congr 1; omega

/-! ## What each format can answer (R66) -/

theorem decodeN_ok {cw : Word32} {i j : Instr} (h : decodeN cw i = .ok j) : zeroN cw = 0 ∧ j = i := by
  unfold decodeN at h; split at h
  · next hz => cases h; exact ⟨hz, rfl⟩
  · cases h

theorem decodeA_ok {cw : Word32} {mk : Byte → Instr} {j : Instr} (h : decodeA cw mk = .ok j) :
    zeroA cw = 0 ∧ j = mk (lowByte cw) := by
  unfold decodeA at h; split at h
  · next hz => cases h; exact ⟨hz, rfl⟩
  · cases h

theorem decodeB_ok {cw : Word32} {mk : Byte → Byte → Instr} {j : Instr} (h : decodeB cw mk = .ok j) :
    zeroB cw = 0 ∧ j = mk (secondByte cw) (lowByte cw) := by
  unfold decodeB at h; split at h
  · next hz => cases h; exact ⟨hz, rfl⟩
  · cases h

theorem decodeI_ok {cw : Word32} {top : Nat} {mk : BitVec 4 → Instr} {j : Instr} (h : decodeI cw top mk = .ok j) :
    zeroI cw = 0 ∧ (idxField cw).toNat ≤ top ∧ j = mk (idxField cw) := by
  unfold decodeI at h; split at h
  · next hz =>
    split at h
    · next hi => cases h; exact ⟨hz, hi, rfl⟩
    · cases h
  · cases h

/-! ## The decoder opcode by opcode (R67) -/

theorem decode_op_nop {cw : Word32} (h : opField cw = 0x00) : decode cw = decodeN cw .nop := by
  simp only [decode, h]; rfl

theorem decode_op_gfdbl {cw : Word32} (h : opField cw = 0x10) : decode cw = decodeA cw .gfdbl := by
  simp only [decode, h]; rfl

theorem decode_op_gfmul {cw : Word32} (h : opField cw = 0x11) : decode cw = decodeB cw .gfmul := by
  simp only [decode, h]; rfl

theorem decode_op_sbox {cw : Word32} (h : opField cw = 0x20) : decode cw = decodeA cw .sbox := by
  simp only [decode, h]; rfl

theorem decode_op_isbox {cw : Word32} (h : opField cw = 0x21) : decode cw = decodeA cw .isbox := by
  simp only [decode, h]; rfl

theorem decode_op_rcon {cw : Word32} (h : opField cw = 0x22) : decode cw = decodeI cw maxRcon .rcon := by
  simp only [decode, h]; rfl

theorem decode_op_ldkey {cw : Word32} (h : opField cw = 0x30) : decode cw = decodeN cw .ldkey := by
  simp only [decode, h]; rfl

theorem decode_op_kexp {cw : Word32} (h : opField cw = 0x31) : decode cw = decodeN cw .kexp := by
  simp only [decode, h]; rfl

theorem decode_op_rdrk {cw : Word32} (h : opField cw = 0x32) : decode cw = decodeI cw maxRound .rdrk := by
  simp only [decode, h]; rfl

theorem decode_op_ldst {cw : Word32} (h : opField cw = 0x40) : decode cw = decodeN cw .ldst := by
  simp only [decode, h]; rfl

theorem decode_op_stst {cw : Word32} (h : opField cw = 0x41) : decode cw = decodeN cw .stst := by
  simp only [decode, h]; rfl

theorem decode_op_ark {cw : Word32} (h : opField cw = 0x42) : decode cw = decodeI cw maxRound .ark := by
  simp only [decode, h]; rfl

theorem decode_op_subb {cw : Word32} (h : opField cw = 0x43) : decode cw = decodeN cw .subb := by
  simp only [decode, h]; rfl

theorem decode_op_isubb {cw : Word32} (h : opField cw = 0x44) : decode cw = decodeN cw .isubb := by
  simp only [decode, h]; rfl

theorem decode_op_shrow {cw : Word32} (h : opField cw = 0x45) : decode cw = decodeN cw .shrow := by
  simp only [decode, h]; rfl

theorem decode_op_ishrow {cw : Word32} (h : opField cw = 0x46) : decode cw = decodeN cw .ishrow := by
  simp only [decode, h]; rfl

theorem decode_op_mixc {cw : Word32} (h : opField cw = 0x47) : decode cw = decodeN cw .mixc := by
  simp only [decode, h]; rfl

theorem decode_op_imixc {cw : Word32} (h : opField cw = 0x48) : decode cw = decodeN cw .imixc := by
  simp only [decode, h]; rfl

theorem decode_op_encb {cw : Word32} (h : opField cw = 0x50) : decode cw = decodeN cw .encb := by
  simp only [decode, h]; rfl

theorem decode_op_decb {cw : Word32} (h : opField cw = 0x51) : decode cw = decodeN cw .decb := by
  simp only [decode, h]; rfl

theorem decode_op_pad {cw : Word32} (h : opField cw = 0x60) : decode cw = decodeN cw .pad := by
  simp only [decode, h]; rfl

theorem decode_op_unpad {cw : Word32} (h : opField cw = 0x61) : decode cw = decodeN cw .unpad := by
  simp only [decode, h]; rfl

theorem decode_op_ecbe {cw : Word32} (h : opField cw = 0x62) : decode cw = decodeN cw .ecbe := by
  simp only [decode, h]; rfl

theorem decode_op_ecbd {cw : Word32} (h : opField cw = 0x63) : decode cw = decodeN cw .ecbd := by
  simp only [decode, h]; rfl

/-- R68: the opcodes of the map. -/
abbrev mappedOpcodes : List Byte :=
  [0x00, 0x10, 0x11, 0x20, 0x21, 0x22, 0x30, 0x31, 0x32, 0x40, 0x41, 0x42, 0x43, 0x44, 0x45, 0x46,
    0x47, 0x48, 0x50, 0x51, 0x60, 0x61, 0x62, 0x63]

theorem decode_reserved {cw : Word32} (h : opField cw ∉ mappedOpcodes) : decode cw = .error .reservedOpcode := by
  have key : ∀ n : Nat, BitVec.ofNat 8 n ∈ mappedOpcodes → (opField cw).toNat ≠ n := by
    intro n hn he
    apply h
    rw [show opField cw = BitVec.ofNat 8 n by rw [← he]; simp]
    exact hn
  unfold decode
  split
  all_goals first
    | rfl
    | (next he => exact absurd he (key _ (by decide)))

end Sys2Proof
end

