-- ==== Sys2Proof/Laws/Memory.lean ====
section
/-! SUPPORT. The laws of the buffers: read after write, what a write leaves alone, and that every buffer operation keeps
the canonical form `Memory.wf`. -/

namespace Sys2Proof.Machine

/-! ## One byte -/

@[simp] theorem Memory.read1_nil (a : Nat) : Memory.read1 [] a = none := rfl

theorem Memory.wf_nil : Memory.wf [] := List.Pairwise.nil

theorem Memory.read1_write1 (m : Memory) (a k : Nat) (b : Byte) :
    Memory.read1 (Memory.write1 m a b) k = if k = a then some b else Memory.read1 m k := by
  induction m with
  | nil => simp [Memory.write1, Memory.read1, eq_comm]
  | cons c rest ih =>
    obtain ⟨j, v⟩ := c
    simp only [Memory.write1]
    split
    · simp [Memory.read1, eq_comm]
    · split
      · next h => subst h; by_cases hk : a = k <;> simp [Memory.read1, hk, eq_comm]
      · next h => by_cases hk : k = a
                  · subst hk; simp [Memory.read1, ih, Ne.symm h]
                  · simp [Memory.read1, ih, hk]

/-- An index below every listed one holds no value. -/
theorem Memory.read1_eq_none_of_lt {m : Memory} {k : Nat} (h : ∀ c ∈ m, k < c.1) :
    Memory.read1 m k = none := by
  induction m with
  | nil => rfl
  | cons c rest ih =>
    obtain ⟨j, v⟩ := c
    have hj : k < j := h (j, v) (by simp)
    have : j ≠ k := by omega
    simp only [Memory.read1, if_neg this]
    exact ih fun c hc => h c (by simp [hc])

/-- Where `write1` puts its cell: only the written index is new. -/
theorem Memory.mem_write1 {m : Memory} {a : Nat} {b : Byte} {c : Host.Cell}
    (h : c ∈ Memory.write1 m a b) : c = (a, b) ∨ c ∈ m := by
  induction m with
  | nil => simpa [Memory.write1] using h
  | cons d rest ih =>
    obtain ⟨j, v⟩ := d
    simp only [Memory.write1] at h
    split at h
    · simpa using h
    · split at h
      · rcases List.mem_cons.1 h with h | h
        · exact .inl h
        · exact .inr (by simp [h])
      · rcases List.mem_cons.1 h with h | h
        · exact .inr (by simp [h])
        · rcases ih h with h | h
          · exact .inl h
          · exact .inr (by simp [h])

theorem Memory.wf_write1 {m : Memory} (h : Memory.wf m) (a : Nat) (b : Byte) :
    Memory.wf (Memory.write1 m a b) := by
  induction m with
  | nil => simp [Memory.write1, Memory.wf]
  | cons d rest ih =>
    obtain ⟨j, v⟩ := d
    obtain ⟨hd, hr⟩ := List.pairwise_cons.1 h
    simp only [Memory.write1]
    split
    · next hlt =>
      refine List.pairwise_cons.2 ⟨?_, h⟩
      intro c hc
      rcases List.mem_cons.1 hc with rfl | hc
      · exact hlt
      · exact Nat.lt_trans hlt (hd c hc)
    · split
      · next he =>
        subst he
        exact List.pairwise_cons.2 ⟨hd, hr⟩
      · next h1 h2 =>
        refine List.pairwise_cons.2 ⟨?_, ih hr⟩
        intro c hc
        rcases Memory.mem_write1 hc with rfl | hc
        · simp only; omega
        · exact hd c hc

/-! ## Many bytes -/

theorem Memory.wf_writeBytes {m : Memory} (h : Memory.wf m) (a : Nat) (v : List Byte) :
    Memory.wf (Memory.writeBytes m a v) := by
  induction v generalizing m a with
  | nil => exact h
  | cons b bs ih => exact ih (Memory.wf_write1 h a b) (a + 1)

/-- R47: after MemWrite the written indices hold the written bytes and every other index what it held. -/
theorem Memory.read1_writeBytes (m : Memory) (a k : Nat) (v : List Byte) :
    Memory.read1 (Memory.writeBytes m a v) k =
      if a ≤ k ∧ k < a + v.length then v[k - a]? else Memory.read1 m k := by
  induction v generalizing m a with
  | nil => simp [Memory.writeBytes, show ¬(a ≤ k ∧ k < a) by omega]
  | cons b bs ih =>
    simp only [Memory.writeBytes, ih, Memory.read1_write1, List.length_cons]
    by_cases h1 : a + 1 ≤ k ∧ k < a + 1 + bs.length
    · rw [if_pos h1, if_pos (by omega)]
      obtain ⟨d, hd⟩ : ∃ d, k - a = d + 1 := ⟨k - a - 1, by omega⟩
      rw [hd, List.getElem?_cons_succ, show k - (a + 1) = d by omega]
    · rw [if_neg h1]
      by_cases h2 : k = a
      · subst h2; simp
      · rw [if_neg h2, if_neg (by omega)]

theorem Memory.wf_below {m : Memory} (h : Memory.wf m) (n : Nat) : Memory.wf (Memory.below m n) :=
  List.Pairwise.filter _ h

theorem Memory.read1_below (m : Memory) (n k : Nat) :
    Memory.read1 (Memory.below m n) k = if k < n then Memory.read1 m k else none := by
  induction m with
  | nil => simp [Memory.below]
  | cons d rest ih =>
    obtain ⟨j, v⟩ := d
    simp only [Memory.below] at ih
    by_cases hj : j < n
    · by_cases hk : j = k
      · subst hk; simp [Memory.below, Memory.read1, hj]
      · simp [Memory.below, Memory.read1, hj, hk, ih]
    · by_cases hk : j = k
      · subst hk; simp [Memory.below, hj, ih]
      · simp [Memory.below, Memory.read1, hj, hk, ih]

theorem Memory.mem_below {m : Memory} {n : Nat} {c : Host.Cell} (h : c ∈ Memory.below m n) : c.1 < n := by
  simpa using (List.mem_filter.1 h).2

/-! ## Canonical buffers are determined by what they read as -/

theorem Memory.ext_of_wf {m n : Memory} (hm : Memory.wf m) (hn : Memory.wf n)
    (h : ∀ k, Memory.read1 m k = Memory.read1 n k) : m = n := by
  induction m generalizing n with
  | nil =>
    cases n with
    | nil => rfl
    | cons d _ => obtain ⟨j, v⟩ := d; simpa [Memory.read1] using h j
  | cons c rest ih =>
    obtain ⟨i, u⟩ := c
    obtain ⟨hc, hr⟩ := List.pairwise_cons.1 hm
    cases n with
    | nil => simpa [Memory.read1] using h i
    | cons d rest' =>
      obtain ⟨j, v⟩ := d
      obtain ⟨hd, hr'⟩ := List.pairwise_cons.1 hn
      have hij : i = j := by
        rcases Nat.lt_trichotomy i j with hlt | heq | hgt
        · have := h i
          rw [Memory.read1_eq_none_of_lt (m := (j, v) :: rest') (k := i)] at this
          · simp [Memory.read1] at this
          · intro c hc'
            rcases List.mem_cons.1 hc' with rfl | hc'
            · exact hlt
            · exact Nat.lt_trans hlt (hd c hc')
        · exact heq
        · have := h j
          rw [Memory.read1_eq_none_of_lt (m := (i, u) :: rest) (k := j)] at this
          · simp [Memory.read1] at this
          · intro c hc'
            rcases List.mem_cons.1 hc' with rfl | hc'
            · exact hgt
            · exact Nat.lt_trans hgt (hc c hc')
      subst hij
      have huv : u = v := by simpa [Memory.read1] using h i
      subst huv
      congr 1
      refine ih hr hr' fun k => ?_
      by_cases hk : i = k
      · subst hk
        rw [Memory.read1_eq_none_of_lt hc, Memory.read1_eq_none_of_lt hd]
      · simpa [Memory.read1, hk] using h k

/-! ## `Memory.ofBytes` -/

theorem Memory.wf_ofBytes (v : List Byte) : Memory.wf (Memory.ofBytes v) :=
  Memory.wf_writeBytes Memory.wf_nil 0 v

@[simp] theorem Memory.read1_ofBytes (v : List Byte) (k : Nat) :
    Memory.read1 (Memory.ofBytes v) k = v[k]? := by
  rw [Memory.ofBytes, Memory.read1_writeBytes]
  by_cases h : k < v.length <;> simp [h]

/-- Writing `v` from index 0 and forgetting the rest leaves exactly `v`, whatever the buffer held (R24, R48). -/
theorem Memory.below_writeBytes_zero {m : Memory} (h : Memory.wf m) (v : List Byte) :
    Memory.below (Memory.writeBytes m 0 v) v.length = Memory.ofBytes v := by
  refine Memory.ext_of_wf (Memory.wf_below (Memory.wf_writeBytes h 0 v) _) (Memory.wf_ofBytes v) fun k => ?_
  rw [Memory.read1_below, Memory.read1_writeBytes, Memory.read1_ofBytes]
  by_cases hk : k < v.length <;> simp [hk]

theorem Memory.mem_iff_of_below {m : Memory} {n : Nat} (h : ∀ c ∈ m, c.1 < n) : Memory.below m n = m :=
  List.filter_eq_self.2 fun c hc => by simpa using h c hc

theorem Memory.holds_ofBytes (v : List Byte) : Memory.Holds (Memory.ofBytes v) v.length where
  wf := Memory.wf_ofBytes v
  valid a ha := by simp [ha]
  bounded c hc := by
    have : c ∈ Memory.below (Memory.writeBytes [] 0 v) v.length := by
      rw [Memory.below_writeBytes_zero Memory.wf_nil]; exact hc
    exact Memory.mem_below this

theorem Memory.holds_nil : Memory.Holds [] 0 where
  wf := Memory.wf_nil
  valid a ha := absurd ha (Nat.not_lt_zero a)
  bounded c hc := by simp at hc

/-! ## `readSeq` (R46) -/

theorem readSeq_length {f : Nat → Option Byte} {a n : Nat} {bs : List Byte} (h : readSeq f a n = some bs) :
    bs.length = n := by
  induction n generalizing a bs with
  | zero => simp [readSeq] at h; simp [← h]
  | succ n ih =>
    simp only [readSeq] at h
    split at h
    · next b bs' _ h2 => cases h; simp [ih h2]
    · cases h

/-- R46: the bytes MemRead returns are the bytes at the indices, in order. -/
theorem readSeq_getElem {f : Nat → Option Byte} {a n : Nat} {bs : List Byte} (h : readSeq f a n = some bs)
    {k : Nat} (hk : k < n) : bs[k]? = f (a + k) := by
  induction n generalizing a bs k with
  | zero => omega
  | succ n ih =>
    simp only [readSeq] at h
    split at h
    · next b bs' h1 h2 =>
      cases h
      cases k with
      | zero => simpa using h1.symm
      | succ k =>
        rw [List.getElem?_cons_succ, ih h2 (by omega), show a + 1 + k = a + (k + 1) by omega]
    · cases h

theorem readSeq_isSome {f : Nat → Option Byte} {a n : Nat} (h : ∀ k, k < n → (f (a + k)).isSome = true) :
    ∃ bs, readSeq f a n = some bs := by
  induction n generalizing a with
  | zero => exact ⟨[], rfl⟩
  | succ n ih =>
    obtain ⟨b, hb⟩ := Option.isSome_iff_exists.1 (h 0 (by omega))
    obtain ⟨bs, hbs⟩ := ih (a := a + 1) fun k hk => by
      rw [show a + 1 + k = a + (k + 1) by omega]; exact h (k + 1) (by omega)
    exact ⟨b :: bs, by simp only [Nat.add_zero] at hb; simp [readSeq, hb, hbs]⟩

theorem readSeq_eq_of_getElem {f : Nat → Option Byte} {a : Nat} {bs : List Byte}
    (h : ∀ k, k < bs.length → f (a + k) = bs[k]?) : readSeq f a bs.length = some bs := by
  obtain ⟨cs, hcs⟩ := readSeq_isSome (f := f) (a := a) (n := bs.length) fun k hk => by
    rw [h k hk]; simp [hk]
  rw [hcs]
  congr 1
  refine List.ext_getElem? fun k => ?_
  by_cases hk : k < bs.length
  · rw [readSeq_getElem hcs hk, h k hk]
  · have := readSeq_length hcs
    simp [show bs.length ≤ k by omega, show cs.length ≤ k by omega]

end Sys2Proof.Machine
end

