-- ==== Sys2Proof/Laws/State.lean ====
section
/-! SUPPORT. What each named update of State does to each field, so that no later proof unfolds a record update. -/

namespace Sys2Proof.Machine

/-! ## R176: raising an error -/

@[simp] theorem raise_cap (e : CommandError) (s : State) : (raise e s).cap = s.cap := rfl
@[simp] theorem raise_key (e : CommandError) (s : State) : (raise e s).key = s.key := rfl
@[simp] theorem raise_w (e : CommandError) (s : State) : (raise e s).w = s.w := rfl
@[simp] theorem raise_smat (e : CommandError) (s : State) : (raise e s).smat = s.smat := rfl
@[simp] theorem raise_kv (e : CommandError) (s : State) : (raise e s).kv = s.kv := rfl
@[simp] theorem raise_rkv (e : CommandError) (s : State) : (raise e s).rkv = s.rkv := rfl
@[simp] theorem raise_sv (e : CommandError) (s : State) : (raise e s).sv = s.sv := rfl
@[simp] theorem raise_fatal (e : CommandError) (s : State) : (raise e s).fatal = (s.fatal || e.isFatal) := rfl
@[simp] theorem raise_err (e : CommandError) (s : State) : (raise e s).err = e.code := rfl
@[simp] theorem raise_ilen (e : CommandError) (s : State) : (raise e s).ilen = s.ilen := rfl
@[simp] theorem raise_olen (e : CommandError) (s : State) : (raise e s).olen = s.olen := rfl
@[simp] theorem raise_ibuf (e : CommandError) (s : State) : (raise e s).ibuf = s.ibuf := rfl
@[simp] theorem raise_obuf (e : CommandError) (s : State) : (raise e s).obuf = s.obuf := rfl
@[simp] theorem raise_draws (e : CommandError) (s : State) : (raise e s).draws = s.draws := rfl
@[simp] theorem raise_host (e : CommandError) (s : State) : (raise e s).host = s.host := rfl
@[simp] theorem raise_reply (e : CommandError) (s : State) : (raise e s).reply = s.reply := rfl

/-! ## R21, R24: producing output -/

@[simp] theorem withOutput_cap (s : State) (v : List Byte) : (s.withOutput v).cap = s.cap := rfl
@[simp] theorem withOutput_key (s : State) (v : List Byte) : (s.withOutput v).key = s.key := rfl
@[simp] theorem withOutput_w (s : State) (v : List Byte) : (s.withOutput v).w = s.w := rfl
@[simp] theorem withOutput_smat (s : State) (v : List Byte) : (s.withOutput v).smat = s.smat := rfl
@[simp] theorem withOutput_kv (s : State) (v : List Byte) : (s.withOutput v).kv = s.kv := rfl
@[simp] theorem withOutput_rkv (s : State) (v : List Byte) : (s.withOutput v).rkv = s.rkv := rfl
@[simp] theorem withOutput_sv (s : State) (v : List Byte) : (s.withOutput v).sv = s.sv := rfl
@[simp] theorem withOutput_fatal (s : State) (v : List Byte) : (s.withOutput v).fatal = s.fatal := rfl
@[simp] theorem withOutput_err (s : State) (v : List Byte) : (s.withOutput v).err = 0 := rfl
@[simp] theorem withOutput_ilen (s : State) (v : List Byte) : (s.withOutput v).ilen = s.ilen := rfl
@[simp] theorem withOutput_olen (s : State) (v : List Byte) : (s.withOutput v).olen = BitVec.ofNat 32 v.length := rfl
@[simp] theorem withOutput_ibuf (s : State) (v : List Byte) : (s.withOutput v).ibuf = s.ibuf := rfl
@[simp] theorem withOutput_obuf (s : State) (v : List Byte) : (s.withOutput v).obuf = Memory.ofBytes v := rfl
@[simp] theorem withOutput_draws (s : State) (v : List Byte) : (s.withOutput v).draws = s.draws := rfl
@[simp] theorem withOutput_host (s : State) (v : List Byte) : (s.withOutput v).host = s.host := rfl
@[simp] theorem withOutput_reply (s : State) (v : List Byte) : (s.withOutput v).reply = s.reply := rfl

/-! ## R13: discarding the state matrix -/

@[simp] theorem discardState_cap (s : State) : (discardState s).cap = s.cap := rfl
@[simp] theorem discardState_key (s : State) : (discardState s).key = s.key := rfl
@[simp] theorem discardState_w (s : State) : (discardState s).w = s.w := rfl
@[simp] theorem discardState_smat (s : State) : (discardState s).smat = Config.discardedState s.draws s.contents := rfl
@[simp] theorem discardState_kv (s : State) : (discardState s).kv = s.kv := rfl
@[simp] theorem discardState_rkv (s : State) : (discardState s).rkv = s.rkv := rfl
@[simp] theorem discardState_sv (s : State) : (discardState s).sv = false := rfl
@[simp] theorem discardState_fatal (s : State) : (discardState s).fatal = s.fatal := rfl
@[simp] theorem discardState_err (s : State) : (discardState s).err = s.err := rfl
@[simp] theorem discardState_ilen (s : State) : (discardState s).ilen = s.ilen := rfl
@[simp] theorem discardState_olen (s : State) : (discardState s).olen = s.olen := rfl
@[simp] theorem discardState_ibuf (s : State) : (discardState s).ibuf = s.ibuf := rfl
@[simp] theorem discardState_obuf (s : State) : (discardState s).obuf = s.obuf := rfl
@[simp] theorem discardState_draws (s : State) : (discardState s).draws = s.draws + 1 := rfl
@[simp] theorem discardState_host (s : State) : (discardState s).host = s.host := rfl
@[simp] theorem discardState_reply (s : State) : (discardState s).reply = s.reply := rfl

/-! ## R146, R147: expanding the key -/

@[simp] theorem expandKey_cap (s : State) : (expandKey s).cap = s.cap := by simp only [expandKey]
@[simp] theorem expandKey_key (s : State) : (expandKey s).key = s.key := by simp only [expandKey]
@[simp] theorem expandKey_w (s : State) : (expandKey s).w = keyExpand s.key := by simp only [expandKey]
@[simp] theorem expandKey_smat (s : State) : (expandKey s).smat = s.smat := by simp only [expandKey]
@[simp] theorem expandKey_kv (s : State) : (expandKey s).kv = s.kv := by simp only [expandKey]
@[simp] theorem expandKey_rkv (s : State) : (expandKey s).rkv = true := by simp only [expandKey]
@[simp] theorem expandKey_sv (s : State) : (expandKey s).sv = s.sv := by simp only [expandKey]
@[simp] theorem expandKey_fatal (s : State) : (expandKey s).fatal = s.fatal := by simp only [expandKey]
@[simp] theorem expandKey_err (s : State) : (expandKey s).err = s.err := by simp only [expandKey]
@[simp] theorem expandKey_ilen (s : State) : (expandKey s).ilen = s.ilen := by simp only [expandKey]
@[simp] theorem expandKey_olen (s : State) : (expandKey s).olen = s.olen := by simp only [expandKey]
@[simp] theorem expandKey_ibuf (s : State) : (expandKey s).ibuf = s.ibuf := by simp only [expandKey]
@[simp] theorem expandKey_obuf (s : State) : (expandKey s).obuf = s.obuf := by simp only [expandKey]
@[simp] theorem expandKey_draws (s : State) : (expandKey s).draws = s.draws := by simp only [expandKey]
@[simp] theorem expandKey_host (s : State) : (expandKey s).host = s.host := by simp only [expandKey]
@[simp] theorem expandKey_reply (s : State) : (expandKey s).reply = s.reply := by simp only [expandKey]

/-! ## taking a transaction -/

@[simp] theorem taken_cap (s : State) (rest : List Transaction) : (s.taken rest).cap = s.cap := rfl
@[simp] theorem taken_key (s : State) (rest : List Transaction) : (s.taken rest).key = s.key := rfl
@[simp] theorem taken_w (s : State) (rest : List Transaction) : (s.taken rest).w = s.w := rfl
@[simp] theorem taken_smat (s : State) (rest : List Transaction) : (s.taken rest).smat = s.smat := rfl
@[simp] theorem taken_kv (s : State) (rest : List Transaction) : (s.taken rest).kv = s.kv := rfl
@[simp] theorem taken_rkv (s : State) (rest : List Transaction) : (s.taken rest).rkv = s.rkv := rfl
@[simp] theorem taken_sv (s : State) (rest : List Transaction) : (s.taken rest).sv = s.sv := rfl
@[simp] theorem taken_fatal (s : State) (rest : List Transaction) : (s.taken rest).fatal = s.fatal := rfl
@[simp] theorem taken_err (s : State) (rest : List Transaction) : (s.taken rest).err = s.err := rfl
@[simp] theorem taken_ilen (s : State) (rest : List Transaction) : (s.taken rest).ilen = s.ilen := rfl
@[simp] theorem taken_olen (s : State) (rest : List Transaction) : (s.taken rest).olen = s.olen := rfl
@[simp] theorem taken_ibuf (s : State) (rest : List Transaction) : (s.taken rest).ibuf = s.ibuf := rfl
@[simp] theorem taken_obuf (s : State) (rest : List Transaction) : (s.taken rest).obuf = s.obuf := rfl
@[simp] theorem taken_draws (s : State) (rest : List Transaction) : (s.taken rest).draws = s.draws := rfl
@[simp] theorem taken_host (s : State) (rest : List Transaction) : (s.taken rest).host = rest := rfl
@[simp] theorem taken_reply (s : State) (rest : List Transaction) : (s.taken rest).reply = Reply.none := rfl

/-! ## the next command word -/

@[simp] theorem issueNext_cap (s : State) (cw : Word32) : (s.issueNext cw).cap = s.cap := rfl
@[simp] theorem issueNext_key (s : State) (cw : Word32) : (s.issueNext cw).key = s.key := rfl
@[simp] theorem issueNext_w (s : State) (cw : Word32) : (s.issueNext cw).w = s.w := rfl
@[simp] theorem issueNext_smat (s : State) (cw : Word32) : (s.issueNext cw).smat = s.smat := rfl
@[simp] theorem issueNext_kv (s : State) (cw : Word32) : (s.issueNext cw).kv = s.kv := rfl
@[simp] theorem issueNext_rkv (s : State) (cw : Word32) : (s.issueNext cw).rkv = s.rkv := rfl
@[simp] theorem issueNext_sv (s : State) (cw : Word32) : (s.issueNext cw).sv = s.sv := rfl
@[simp] theorem issueNext_fatal (s : State) (cw : Word32) : (s.issueNext cw).fatal = s.fatal := rfl
@[simp] theorem issueNext_err (s : State) (cw : Word32) : (s.issueNext cw).err = s.err := rfl
@[simp] theorem issueNext_ilen (s : State) (cw : Word32) : (s.issueNext cw).ilen = s.ilen := rfl
@[simp] theorem issueNext_olen (s : State) (cw : Word32) : (s.issueNext cw).olen = s.olen := rfl
@[simp] theorem issueNext_ibuf (s : State) (cw : Word32) : (s.issueNext cw).ibuf = s.ibuf := rfl
@[simp] theorem issueNext_obuf (s : State) (cw : Word32) : (s.issueNext cw).obuf = s.obuf := rfl
@[simp] theorem issueNext_draws (s : State) (cw : Word32) : (s.issueNext cw).draws = s.draws := rfl
@[simp] theorem issueNext_host (s : State) (cw : Word32) : (s.issueNext cw).host = Transaction.issue cw :: s.host := rfl
@[simp] theorem issueNext_reply (s : State) (cw : Word32) : (s.issueNext cw).reply = s.reply := rfl

/-! ## The reset state (R30, R200) -/

@[simp] theorem resetWith_cap (cap draws : Nat) (left : Config.Contents) :
    (State.resetWith cap draws left).cap = cap := rfl
@[simp] theorem resetWith_key (cap draws : Nat) (left : Config.Contents) :
    (State.resetWith cap draws left).key = left.key := rfl
@[simp] theorem resetWith_w (cap draws : Nat) (left : Config.Contents) :
    (State.resetWith cap draws left).w = left.w := rfl
@[simp] theorem resetWith_smat (cap draws : Nat) (left : Config.Contents) :
    (State.resetWith cap draws left).smat = left.smat := rfl
@[simp] theorem resetWith_kv (cap draws : Nat) (left : Config.Contents) :
    (State.resetWith cap draws left).kv = false := rfl
@[simp] theorem resetWith_rkv (cap draws : Nat) (left : Config.Contents) :
    (State.resetWith cap draws left).rkv = false := rfl
@[simp] theorem resetWith_sv (cap draws : Nat) (left : Config.Contents) :
    (State.resetWith cap draws left).sv = false := rfl
@[simp] theorem resetWith_fatal (cap draws : Nat) (left : Config.Contents) :
    (State.resetWith cap draws left).fatal = false := rfl
@[simp] theorem resetWith_err (cap draws : Nat) (left : Config.Contents) :
    (State.resetWith cap draws left).err = 0 := rfl
@[simp] theorem resetWith_ilen (cap draws : Nat) (left : Config.Contents) :
    (State.resetWith cap draws left).ilen = 0 := rfl
@[simp] theorem resetWith_olen (cap draws : Nat) (left : Config.Contents) :
    (State.resetWith cap draws left).olen = 0 := rfl
@[simp] theorem resetWith_ibuf (cap draws : Nat) (left : Config.Contents) :
    (State.resetWith cap draws left).ibuf = [] := rfl
@[simp] theorem resetWith_obuf (cap draws : Nat) (left : Config.Contents) :
    (State.resetWith cap draws left).obuf = [] := rfl
@[simp] theorem resetWith_draws (cap draws : Nat) (left : Config.Contents) :
    (State.resetWith cap draws left).draws = draws := rfl
@[simp] theorem resetWith_host (cap draws : Nat) (left : Config.Contents) :
    (State.resetWith cap draws left).host = [] := rfl
@[simp] theorem resetWith_reply (cap draws : Nat) (left : Config.Contents) :
    (State.resetWith cap draws left).reply = Reply.none := rfl

end Sys2Proof.Machine
end

