-- ==== Sys2Proof/Laws/Ops.lean ====
section
/-! SUPPORT. One specification lemma for each shared operation: everything the operation can do, so that a proof about a
meaning cites it and does not unfold it. -/

namespace Sys2Proof.Machine

/-! ## How a command runs (R170, R171, R178) -/

@[simp] theorem firstRaised_nil : firstRaised [] = none := rfl

@[simp] theorem firstRaised_cons (fails : Bool) (e : CommandError) (rest : List (Bool × CommandError)) :
    firstRaised ((fails, e) :: rest) = if fails then some e else firstRaised rest := rfl

/-- No error is raised exactly when every check passes. -/
theorem firstRaised_eq_none {checks : List (Bool × CommandError)} :
    firstRaised checks = none ↔ ∀ c ∈ checks, c.1 = false := by
  induction checks with
  | nil => simp
  | cons c rest ih => obtain ⟨fails, e⟩ := c; cases fails <;> simp [ih]

/-- R171: under FATAL nothing happens. -/
theorem command_fatal {s : State} (h : s.fatal = true) (checks : List (Bool × CommandError))
    (effect : State → Result) : command s checks effect = .next s := by
  simp [command, h]

/-- R170 (3), (4): a failing check raises. -/
theorem command_raises {s : State} (h : s.fatal = false) {checks : List (Bool × CommandError)} {e : CommandError}
    (he : firstRaised checks = some e) (effect : State → Result) : command s checks effect = .next (raise e s) := by
  simp [command, h, he]

/-- R170 (5): with every check passed the command is its effect. -/
theorem command_effect {s : State} (h : s.fatal = false) {checks : List (Bool × CommandError)}
    (hc : firstRaised checks = none) (effect : State → Result) : command s checks effect = effect s := by
  simp [command, h, hc]

/-- Everything a command can do: it is refused under FATAL, or it raises one error, or it has its effect. -/
theorem command_cases {s : State} {checks : List (Bool × CommandError)} {effect : State → Result} {r : Result}
    (h : command s checks effect = r) :
    (s.fatal = true ∧ r = .next s) ∨
    (s.fatal = false ∧ ∃ e, firstRaised checks = some e ∧ r = .next (raise e s)) ∨
    (s.fatal = false ∧ firstRaised checks = none ∧ effect s = r) := by
  simp only [command] at h
  split at h
  · next hf => exact .inl ⟨hf, h.symm⟩
  · next hf =>
    have hf : s.fatal = false := by simpa using hf
    split at h
    · next e he => exact .inr (.inl ⟨hf, e, he, h.symm⟩)
    · next he => exact .inr (.inr ⟨hf, he, h⟩)

/-! ## Reading (R46) -/

/-- R46: inside the valid part of IBUF a read gives the bytes. -/
theorem memRead_ibuf {s : State} (h : s.Inv) {addr n : Nat} (hn : addr + n ≤ s.ilen.toNat) :
    ∃ bs, memRead s .ibuf addr n = some bs := by
  simp only [memRead, if_pos hn]
  exact readSeq_isSome fun k hk => h.ibuf_holds.valid _ (by omega)

/-- R50: the valid part of OBUF can be read whole. -/
theorem memRead_obuf {s : State} (h : s.Inv) : ∃ bs, memRead s .obuf 0 s.olen.toNat = some bs := by
  simp only [memRead, Nat.zero_add, Nat.le_refl, if_true]
  exact readSeq_isSome fun k hk => h.obuf_holds.valid _ (by omega)

/-- R23: in a sound state IBUF holds a message. -/
theorem input_exists {s : State} (h : s.Inv) : ∃ m, s.Input m := memRead_ibuf h (by omega)

theorem input_length {s : State} {m : List Byte} (h : s.Input m) : m.length = s.ilen.toNat := by
  simp only [State.Input, memRead, Nat.zero_add, Nat.le_refl, if_true] at h
  exact readSeq_length h

/-- R23: byte `k` of the message is `IBUF[k]`. -/
theorem input_getElem {s : State} {m : List Byte} (h : s.Input m) {k : Nat} (hk : k < m.length) :
    m[k]? = Memory.read1 s.ibuf k := by
  rw [input_length h] at hk
  simp only [State.Input, memRead, Nat.zero_add, Nat.le_refl, if_true] at h
  simpa using readSeq_getElem h hk

theorem withMessage_eq {s : State} {m : List Byte} (h : s.Input m) (k : List Byte → State → Result) :
    withMessage k s = k m s := by
  unfold State.Input at h
  simp [withMessage, withBytes, messageLen, h]

theorem withBlock_eq {s : State} {m : List Byte} (h : s.Input m) (hl : s.ilen = 16#32)
    (k : Block → State → Result) : withBlock k s = k (blockOfBytes m) s := by
  have h16 : s.ilen.toNat = 16 := by simp [hl]
  unfold State.Input at h
  rw [h16] at h
  simp [withBlock, withBytes, h]

@[simp] theorem notOneBlock_eq_false {s : State} : notOneBlock s = false ↔ s.ilen = 16#32 := by
  simp [notOneBlock]

@[simp] theorem notOneBlock_eq_true {s : State} : notOneBlock s = true ↔ s.ilen ≠ 16#32 := by
  simp [notOneBlock]

@[simp] theorem paddedTooLong_eq_false {s : State} :
    paddedTooLong s = false ↔ s.ilen.toNat + padLen s.ilen.toNat ≤ s.cap := by
  rw [paddedTooLong, decide_eq_false_iff_not, messageLen, Nat.not_lt]

@[simp] theorem paddedTooLong_eq_true {s : State} :
    paddedTooLong s = true ↔ s.cap < s.ilen.toNat + padLen s.ilen.toNat := by
  rw [paddedTooLong, decide_eq_true_iff, messageLen]

@[simp] theorem badRound_eq_false {idx : BitVec 4} : badRound idx = false ↔ idx.toNat ≤ 10 := by
  rw [badRound, decide_eq_false_iff_not, Nat.not_lt]

@[simp] theorem badRcon_eq_false {idx : BitVec 4} : badRcon idx = false ↔ idx.toNat ≤ 9 := by
  rw [badRcon, decide_eq_false_iff_not, Nat.not_lt]

theorem sbox_entry : ∀ a : Byte, romByte sboxRows a.toNat = some (sbox a) := by decide +kernel

theorem isbox_entry : ∀ a : Byte, romByte isboxRows a.toNat = some (isbox a) := by decide +kernel

theorem rcon_entry : ∀ i, i ≤ 9 → romByte rconRows i = some (rcon i) := by decide +kernel

/-- R47: "a table lookup with a byte index cannot be out of range". -/
theorem memRead_sbox (s : State) (a : Byte) : memRead s .sbox a.toNat 1 = some [sbox a] := by
  simp [memRead, readSeq, sbox_entry]

theorem memRead_isbox (s : State) (a : Byte) : memRead s .isbox a.toNat 1 = some [isbox a] := by
  simp [memRead, readSeq, isbox_entry]

theorem memRead_rcon (s : State) {i : Nat} (h : i ≤ 9) : memRead s .rcon i 1 = some [rcon i] := by
  simp [memRead, readSeq, rcon_entry i h]

/-! ## Producing output (R24, R47) -/

/-- A result that fits OBUF is delivered: OBUF holds exactly it, OLEN is its length, ERR is 0. -/
theorem deliver_eq {s : State} {v : List Byte} (hw : Memory.wf s.obuf) (hv : v.length ≤ s.cap) :
    deliver v s = .next (s.withOutput v) := by
  simp only [deliver, memWrite, Nat.zero_add, if_pos hv, complete, State.withOutput]
  rw [Memory.below_writeBytes_zero hw]

/-- Everything `deliver` can do: it stops outside CAP, or it writes OBUF, OLEN and ERR and nothing else. -/
theorem deliver_cases {s : State} {v : List Byte} {r : Result} (h : deliver v s = r) :
    (s.cap < v.length ∧ r = .fault (.writeOutside 0 v.length)) ∨
    (v.length ≤ s.cap ∧
      r = .next { s with
        obuf := Memory.below (Memory.writeBytes s.obuf 0 v) v.length
        olen := BitVec.ofNat 32 v.length
        err := 0 }) := by
  simp only [deliver, memWrite, Nat.zero_add] at h
  split at h
  · next t ht =>
    split at ht
    · next hv => cases ht; exact .inr ⟨hv, h.symm⟩
    · cases ht
  · next ht =>
    split at ht
    · cases ht
    · next hv => exact .inl ⟨by omega, h.symm⟩

/-- Unpadding where the last byte claims no more than there is (R145). -/
theorem deliverUnpadded_some {s : State} {d m : List Byte} (h : unpad d = some m) :
    deliverUnpadded d s = deliver m s := by
  simp [deliverUnpadded, h]

/-- R152: where it claims more, at most CAP bytes come out. -/
theorem deliverUnpadded_none {s : State} {d : List Byte} (h : unpad d = none) :
    ∃ v : List Byte, v.length ≤ s.cap ∧ deliverUnpadded d s = deliver v { s with draws := s.draws + 1 } := by
  refine ⟨(Config.unpadUnderflow s.draws s.cap s.contents d).take s.cap, ?_, by simp [deliverUnpadded, h]⟩
  simp

/-- Unpadding never gives more bytes than it takes. -/
theorem unpad_length_le {d m : List Byte} (h : unpad d = some m) : m.length ≤ d.length := by
  simp only [unpad] at h
  split at h
  · cases h
  · split at h
    · cases h; simp
    · cases h

end Sys2Proof.Machine
end

