-- ==== Sys2Proof/Laws/Exec.lean ====
section
/-! SUPPORT. What executing a command can do, said once for all commands and in every state: nothing under FATAL, one
error, or the effect whose shape `Effect` gives. A proof about frames, flags or invariants cites `exec_cases` and splits
on the command. -/

namespace Sys2Proof.Machine

/-- `s` after `v` was delivered: OBUF, OLEN and ERR written, nothing else. -/
def delivered (v : List Byte) (s : State) : State :=
  { s with
    obuf := Memory.below (Memory.writeBytes s.obuf 0 v) v.length
    olen := BitVec.ofNat 32 v.length
    err := 0 }

/-- `s` after a result of at most CAP bytes was delivered. -/
def Delivers (s t : State) : Prop := ∃ v : List Byte, v.length ≤ s.cap ∧ t = delivered v s

/-- The same, possibly with one free value drawn. -/
def DeliversDrawn (s t : State) : Prop :=
  ∃ (v : List Byte) (d : Nat), v.length ≤ s.cap ∧ t = delivered v { s with draws := d }

/-- The shape of a command's effect, once all its checks have passed. -/
def Effect (i : Instr) (s t : State) : Prop :=
  match i with
  | .nop => t = { s with err := 0 }
  | .gfdbl _ | .gfmul _ _ | .sbox _ | .isbox _ | .rcon _ => Delivers s t
  | .rdrk _ => s.rkv = true ∧ Delivers s t
  | .stst => s.sv = true ∧ Delivers s t
  | .pad => Delivers s t
  | .unpad => DeliversDrawn s t
  | .ldkey => s.kv = false ∧ ∃ k, t = { s with key := k, kv := true, err := 0 }
  | .kexp => s.kv = true ∧ t = { s with w := keyExpand s.key, rkv := true, err := 0 }
  | .ldst => ∃ x, t = { s with smat := x, sv := true, err := 0 }
  | .ark _ => s.sv = true ∧ s.rkv = true ∧ ∃ x, t = { s with smat := x, err := 0 }
  | .subb | .isubb | .shrow | .ishrow | .mixc | .imixc => s.sv = true ∧ ∃ x, t = { s with smat := x, err := 0 }
  | .encb | .decb => s.rkv = true ∧ Delivers (discardState s) t
  | .ecbe => s.kv = true ∧ Delivers (discardState (expandKey s)) t
  | .ecbd => s.kv = true ∧ DeliversDrawn (discardState (expandKey s)) t

theorem deliver_next {s t : State} {v : List Byte} (h : deliver v s = .next t) : Delivers s t := by
  rcases deliver_cases h with ⟨_, h⟩ | ⟨hv, h⟩
  · cases h
  · cases h; exact ⟨v, hv, rfl⟩

theorem deliverUnpadded_next {s t : State} {d : List Byte} (h : deliverUnpadded d s = .next t) : DeliversDrawn s t := by
  cases hu : unpad d with
  | some m =>
    rw [deliverUnpadded_some hu] at h
    obtain ⟨v, hv, rfl⟩ := deliver_next h
    exact ⟨v, s.draws, hv, rfl⟩
  | none =>
    obtain ⟨v, _, he⟩ := deliverUnpadded_none (s := s) hu
    obtain ⟨v', hv', rfl⟩ := deliver_next (he.symm.trans h)
    exact ⟨v', s.draws + 1, hv', rfl⟩

theorem withBytes_next {s t : State} {space : Space} {addr n : Nat} {k : List Byte → State → Result}
    (h : withBytes space addr n k s = .next t) : ∃ bs, memRead s space addr n = some bs ∧ k bs s = .next t := by
  simp only [withBytes] at h
  split at h
  · next bs hb => exact ⟨bs, hb, h⟩
  · cases h

theorem withMessage_next {s t : State} {k : List Byte → State → Result} (h : withMessage k s = .next t) :
    ∃ m, s.Input m ∧ k m s = .next t := withBytes_next h

theorem withBlock_next {s t : State} {k : Block → State → Result} (h : withBlock k s = .next t) :
    ∃ b, k b s = .next t := by
  obtain ⟨bs, _, h⟩ := withBytes_next h
  exact ⟨_, h⟩

theorem transformState_cases {f : Mat → Mat} {s t : State} (h : transformState f s = .next t) :
    (s.fatal = true ∧ t = s) ∨ (s.fatal = false ∧ s.sv = false ∧ t = raise .sequence s) ∨
    (s.fatal = false ∧ s.sv = true ∧ t = { s with smat := f s.smat, err := 0 }) := by
  rcases command_cases h with ⟨hf, h⟩ | ⟨hf, e, he, h⟩ | ⟨hf, hc, h⟩
  · cases h; exact .inl ⟨hf, rfl⟩
  · cases h
    simp only [firstRaised_cons, firstRaised_nil] at he
    split at he <;> cases he
    exact .inr (.inl ⟨hf, by simp_all, rfl⟩)
  · have hs : s.sv = true := by simpa using hc
    cases h; exact .inr (.inr ⟨hf, hs, rfl⟩)

theorem blockCommand_cases {f : Block → Schedule → Block} {s t : State} (h : blockCommand f s = .next t) :
    (s.fatal = true ∧ t = s) ∨ (s.fatal = false ∧ ∃ e, e ≠ .config ∧ t = raise e s) ∨
    (s.fatal = false ∧ s.rkv = true ∧ Delivers (discardState s) t) := by
  rcases command_cases h with ⟨hf, h⟩ | ⟨hf, e, he, h⟩ | ⟨hf, hc, h⟩
  · cases h; exact .inl ⟨hf, rfl⟩
  · cases h
    refine .inr (.inl ⟨hf, e, ?_, rfl⟩)
    rintro rfl
    simp only [firstRaised_cons, firstRaised_nil] at he
    repeat' split at he
    all_goals cases he
  · have hr : s.rkv = true := by simpa using (firstRaised_eq_none.1 hc) _ (List.mem_cons_self ..)
    obtain ⟨b, h⟩ := withBlock_next h
    exact .inr (.inr ⟨hf, hr, deliver_next h⟩)

/-- Everything that executing a command can do when it answers a next state: nothing at all under FATAL (R171); one
error, ConfigError only by LDKEY with no key loaded and an input that is not 16 bytes (R172, R176); or its effect. -/
theorem exec_cases {i : Instr} {s t : State} (h : exec i s = .next t) :
    (s.fatal = true ∧ t = s) ∨
    (s.fatal = false ∧ ∃ e, (e = .config → i = .ldkey ∧ s.kv = false ∧ s.ilen ≠ 16#32) ∧ t = raise e s) ∨
    (s.fatal = false ∧ Effect i s t) := by
  cases i with
  | subb | isubb | shrow | ishrow | mixc | imixc =>
    rcases transformState_cases h with ⟨hf, h⟩ | ⟨hf, hs, h⟩ | ⟨hf, hs, h⟩
    · exact .inl ⟨hf, h⟩
    · exact .inr (.inl ⟨hf, _, by simp, h⟩)
    · exact .inr (.inr ⟨hf, hs, _, h⟩)
  | encb | decb =>
    rcases blockCommand_cases h with ⟨hf, h⟩ | ⟨hf, e, he, h⟩ | ⟨hf, hs, h⟩
    · exact .inl ⟨hf, h⟩
    · exact .inr (.inl ⟨hf, e, fun hc => absurd hc he, h⟩)
    · exact .inr (.inr ⟨hf, hs, h⟩)
  | _ =>
    simp only [exec, execNop, execGfdbl, execGfmul, execSbox, execIsbox, execRcon, execLdkey, execKexp, execRdrk,
      execLdst, execStst, execArk, execPad, execUnpad, execEcbe, execEcbd] at h
    rcases command_cases h with ⟨hf, h⟩ | ⟨hf, e, he, h⟩ | ⟨hf, hc, h⟩
    · cases h; exact .inl ⟨hf, rfl⟩
    · cases h
      refine .inr (.inl ⟨hf, e, ?_, rfl⟩)
      rintro rfl
      first
      | (simp at he; done)
      | (simp only [firstRaised_cons, firstRaised_nil] at he
         repeat' split at he
         all_goals simp_all)
    · refine .inr (.inr ⟨hf, ?_⟩)
      rw [firstRaised_eq_none] at hc
      first
      | (cases h; rfl)
      | exact deliver_next h
      | (obtain ⟨bs, _, h⟩ := withBytes_next h; exact deliver_next h)
      | (obtain ⟨bs, _, h⟩ := withMessage_next h; exact deliverUnpadded_next h)
      | (obtain ⟨bs, h⟩ := withBlock_next h; cases h; exact ⟨_, rfl⟩)
      | (obtain ⟨bs, h⟩ := withBlock_next h; cases h; exact ⟨by simp_all, _, rfl⟩)
      | (refine ⟨?_, deliver_next h⟩; simp_all)
      | (cases h; refine ⟨?_, rfl⟩; simp_all)
      | (cases h; refine ⟨?_, ?_, _, rfl⟩ <;> simp_all)
      | (obtain ⟨bs, _, h⟩ := withMessage_next h; refine ⟨?_, deliver_next h⟩; simp_all)
      | (obtain ⟨bs, _, h⟩ := withMessage_next h; refine ⟨?_, deliverUnpadded_next h⟩; simp_all)

end Sys2Proof.Machine
end

