-- ==== Sys2Proof/Laws/Invariant.lean ====
section
/-! SUPPORT. Every named update of State keeps the invariant of sound states, under the condition its callers
establish. -/

namespace Sys2Proof.Machine

theorem CommandError.code_le (e : CommandError) : e.code.toNat ≤ 5 := by cases e <;> decide

theorem CommandError.isFatal_iff (e : CommandError) : e.isFatal = true ↔ e.code = 1 := by cases e <;> decide

/-- R176: raising keeps the invariant; ConfigError is raised only with no key loaded. -/
theorem inv_raise {s : State} (h : s.Inv) (hf : s.fatal = false) {e : CommandError}
    (he : e = .config → s.kv = false) : (raise e s).Inv where
  cap_admissible := h.cap_admissible
  ilen_le_cap := h.ilen_le_cap
  olen_le_cap := h.olen_le_cap
  ibuf_holds := h.ibuf_holds
  obuf_holds := h.obuf_holds
  err_is_code := e.code_le
  rkv_schedule := h.rkv_schedule
  fatal_no_key hr := by
    have : e.isFatal = true := by simpa [hf] using hr
    exact he (by cases e <;> simp_all [CommandError.isFatal])
  fatal_iff_config := by simp [hf, e.isFatal_iff]

/-- CAP is below 2^31, so a length up to CAP fits a length register (R148). -/
theorem toNat_length {cap : Nat} (hc : Config.AdmissibleCap cap) {n : Nat} (hn : n ≤ cap) :
    (BitVec.ofNat 32 n).toNat = n := by
  rw [BitVec.toNat_ofNat, Nat.mod_eq_of_lt]
  have := hc.2.2
  omega

/-- Producing output of at most CAP bytes keeps the invariant. -/
theorem inv_withOutput {s : State} (h : s.Inv) (hf : s.fatal = false) {v : List Byte} (hv : v.length ≤ s.cap) :
    (s.withOutput v).Inv where
  cap_admissible := h.cap_admissible
  ilen_le_cap := h.ilen_le_cap
  olen_le_cap := by simpa [toNat_length h.cap_admissible hv] using hv
  ibuf_holds := h.ibuf_holds
  obuf_holds := by simpa [toNat_length h.cap_admissible hv] using Memory.holds_ofBytes v
  err_is_code := by simp
  rkv_schedule := h.rkv_schedule
  fatal_no_key := h.fatal_no_key
  fatal_iff_config := by simp [hf]

/-- A command that completes and writes registers keeps the invariant if W still is the schedule of KEY where RKV says
so. -/
theorem inv_complete {s : State} (h : s.Inv) (hf : s.fatal = false) {k : Block} {w : Schedule} {x : Mat}
    {kv rkv sv : Bool} (hr : rkv = true → kv = true ∧ w = keyExpand k) :
    State.Inv { s with key := k, w := w, smat := x, kv := kv, rkv := rkv, sv := sv, err := 0 } where
  cap_admissible := h.cap_admissible
  ilen_le_cap := h.ilen_le_cap
  olen_le_cap := h.olen_le_cap
  ibuf_holds := h.ibuf_holds
  obuf_holds := h.obuf_holds
  err_is_code := by simp
  rkv_schedule := hr
  fatal_no_key hf' := by simp [hf] at hf'
  fatal_iff_config := by simp [hf]

/-- Discarding S and drawing free values keeps the invariant. -/
theorem inv_scratch {s : State} (h : s.Inv) (x : Mat) (sv : Bool) (d : Nat) :
    State.Inv { s with smat := x, sv := sv, draws := d } where
  cap_admissible := h.cap_admissible
  ilen_le_cap := h.ilen_le_cap
  olen_le_cap := h.olen_le_cap
  ibuf_holds := h.ibuf_holds
  obuf_holds := h.obuf_holds
  err_is_code := h.err_is_code
  rkv_schedule := h.rkv_schedule
  fatal_no_key := h.fatal_no_key
  fatal_iff_config := h.fatal_iff_config

theorem inv_discardState {s : State} (h : s.Inv) : (discardState s).Inv := inv_scratch h _ _ _

/-- Expanding the key keeps the invariant where a key is loaded. -/
theorem inv_expandKey {s : State} (h : s.Inv) (hk : s.kv = true) : (expandKey s).Inv where
  cap_admissible := h.cap_admissible
  ilen_le_cap := h.ilen_le_cap
  olen_le_cap := h.olen_le_cap
  ibuf_holds := h.ibuf_holds
  obuf_holds := h.obuf_holds
  err_is_code := h.err_is_code
  rkv_schedule _ := ⟨hk, by simp only [expandKey]⟩
  fatal_no_key := h.fatal_no_key
  fatal_iff_config := h.fatal_iff_config

/-- HOST's side of the port is no part of the invariant. -/
theorem inv_host {s : State} (h : s.Inv) (rest : List Transaction) (r : Reply) :
    State.Inv { s with host := rest, reply := r } where
  cap_admissible := h.cap_admissible
  ilen_le_cap := h.ilen_le_cap
  olen_le_cap := h.olen_le_cap
  ibuf_holds := h.ibuf_holds
  obuf_holds := h.obuf_holds
  err_is_code := h.err_is_code
  rkv_schedule := h.rkv_schedule
  fatal_no_key := h.fatal_no_key
  fatal_iff_config := h.fatal_iff_config

/-- R48: a message of at most CAP bytes put into IBUF keeps the invariant. -/
theorem inv_putInput {s : State} (h : s.Inv) {m : List Byte} (hm : m.length ≤ s.cap) :
    State.Inv { s with ibuf := Memory.ofBytes m, ilen := BitVec.ofNat 32 m.length } where
  cap_admissible := h.cap_admissible
  ilen_le_cap := by simpa [toNat_length h.cap_admissible hm] using hm
  olen_le_cap := h.olen_le_cap
  ibuf_holds := by simpa [toNat_length h.cap_admissible hm] using Memory.holds_ofBytes m
  obuf_holds := h.obuf_holds
  err_is_code := h.err_is_code
  rkv_schedule := h.rkv_schedule
  fatal_no_key := h.fatal_no_key
  fatal_iff_config := h.fatal_iff_config

/-- The message of a buffer made of it. -/
theorem input_ofBytes {s : State} {m : List Byte} (hi : s.ibuf = Memory.ofBytes m) (hl : s.ilen.toNat = m.length) :
    s.Input m := by
  simp only [State.Input, memRead, Nat.zero_add, hl, Nat.le_refl, if_true, hi]
  exact readSeq_eq_of_getElem fun k _ => by simp

/-! ## What `deliver` and `deliverUnpadded` do in a sound state -/

theorem deliver_sound {s : State} (h : s.Inv) {v : List Byte} (hv : v.length ≤ s.cap) :
    deliver v s = .next (s.withOutput v) :=
  deliver_eq h.obuf_holds.wf hv

/-- Unpadding always ends by delivering at most CAP bytes, with or without a free value drawn. -/
theorem deliverUnpadded_sound {s : State} (h : s.Inv) {d : List Byte} (hd : d.length ≤ s.cap) :
    ∃ (v : List Byte) (n : Nat), v.length ≤ s.cap ∧
      deliverUnpadded d s = .next ({ s with draws := n }.withOutput v) ∧ (∀ m, unpad d = some m → v = m ∧ n = s.draws) := by
  cases hu : unpad d with
  | some m =>
    have hm := Nat.le_trans (unpad_length_le hu) hd
    refine ⟨m, s.draws, hm, ?_, fun m' h' => ⟨by cases h'; rfl, rfl⟩⟩
    rw [deliverUnpadded_some hu, deliver_sound h hm]
  | none =>
    obtain ⟨v, hv, he⟩ := deliverUnpadded_none (s := s) hu
    refine ⟨v, s.draws + 1, hv, ?_, fun m' h' => by cases h'⟩
    exact he.trans (deliver_eq (s := { s with draws := s.draws + 1 }) h.obuf_holds.wf hv)

end Sys2Proof.Machine
end

