-- ==== Sys2Proof/Laws/PerInstr.lean ====
section
/-! SUPPORT. One statement about the syntax of every command, proved command by command: the opcode field of its word
(spec/30_encoding.md R60) is the opcode the map gives it (R67). -/

/-- R60, R67: bits 31:24 of the command's word are its opcode. -/
def Sys2Proof.Laws.OpcodeOfEncoding.Statement (i : Sys2Proof.Instr) : Prop :=
  Sys2Proof.opField (Sys2Proof.encode i) = i.opcode

namespace Sys2Proof.Laws.OpcodeOfEncoding

open Sys2Proof

theorem nop : Statement .nop := opField_formatN _ _

theorem gfdbl (a : Byte) : Statement (.gfdbl a) := opField_formatA _ _ _

theorem gfmul (a b : Byte) : Statement (.gfmul a b) := opField_formatB _ _ _ _

theorem sbox (a : Byte) : Statement (.sbox a) := opField_formatA _ _ _

theorem isbox (a : Byte) : Statement (.isbox a) := opField_formatA _ _ _

theorem rcon (idx : BitVec 4) : Statement (.rcon idx) := opField_formatI _ _ _

theorem ldkey : Statement .ldkey := opField_formatN _ _

theorem kexp : Statement .kexp := opField_formatN _ _

theorem rdrk (idx : BitVec 4) : Statement (.rdrk idx) := opField_formatI _ _ _

theorem ldst : Statement .ldst := opField_formatN _ _

theorem stst : Statement .stst := opField_formatN _ _

theorem ark (idx : BitVec 4) : Statement (.ark idx) := opField_formatI _ _ _

theorem subb : Statement .subb := opField_formatN _ _

theorem isubb : Statement .isubb := opField_formatN _ _

theorem shrow : Statement .shrow := opField_formatN _ _

theorem ishrow : Statement .ishrow := opField_formatN _ _

theorem mixc : Statement .mixc := opField_formatN _ _

theorem imixc : Statement .imixc := opField_formatN _ _

theorem encb : Statement .encb := opField_formatN _ _

theorem decb : Statement .decb := opField_formatN _ _

theorem pad : Statement .pad := opField_formatN _ _

theorem unpad : Statement .unpad := opField_formatN _ _

theorem ecbe : Statement .ecbe := opField_formatN _ _

theorem ecbd : Statement .ecbd := opField_formatN _ _

end Sys2Proof.Laws.OpcodeOfEncoding
end

