-- ==== Sys2Proof/Machine/Assembler.lean ====
section
/-! DEFINITION. The assembler syntax and the pseudo-commands (spec/30_encoding.md R73, R74). Nothing of the machine
depends on this file. -/

namespace Sys2Proof.Machine

/-- One hexadecimal digit, as R73 prints it. -/
def hexDigit (n : Nat) : String :=
  ["0", "1", "2", "3", "4", "5", "6", "7", "8", "9", "a", "b", "c", "d", "e", "f"].getD n "0"

/-- R7: two hexadecimal digits a byte. -/
def hexByte (b : Byte) : String := hexDigit (b.toNat / 16) ++ hexDigit (b.toNat % 16)

/-- R7: a byte sequence in hexadecimal, first byte first. -/
def hexBytes (bs : List Byte) : String := bs.foldl (fun text b => text ++ hexByte b) ""

/-- An index in decimal; the legal indices are 0 to 10. -/
def decimal (idx : BitVec 4) : String :=
  ["0", "1", "2", "3", "4", "5", "6", "7", "8", "9", "10", "11", "12", "13", "14", "15"].getD idx.toNat "0"

/-- R73: "the mnemonic of rule R67 in capitals, then its operands separated by a comma; byte operands in hexadecimal
with `0x`, indices in decimal". -/
def asm (i : Instr) : String :=
  match i with
  | .nop => i.mnemonic
  | .gfdbl a => i.mnemonic ++ " 0x" ++ hexByte a
  | .gfmul a b => i.mnemonic ++ " 0x" ++ hexByte a ++ ", 0x" ++ hexByte b
  | .sbox a => i.mnemonic ++ " 0x" ++ hexByte a
  | .isbox a => i.mnemonic ++ " 0x" ++ hexByte a
  | .rcon idx => i.mnemonic ++ " " ++ decimal idx
  | .ldkey => i.mnemonic
  | .kexp => i.mnemonic
  | .rdrk idx => i.mnemonic ++ " " ++ decimal idx
  | .ldst => i.mnemonic
  | .stst => i.mnemonic
  | .ark idx => i.mnemonic ++ " " ++ decimal idx
  | .subb => i.mnemonic
  | .isubb => i.mnemonic
  | .shrow => i.mnemonic
  | .ishrow => i.mnemonic
  | .mixc => i.mnemonic
  | .imixc => i.mnemonic
  | .encb => i.mnemonic
  | .decb => i.mnemonic
  | .pad => i.mnemonic
  | .unpad => i.mnemonic
  | .ecbe => i.mnemonic
  | .ecbd => i.mnemonic

/-- R73: the line of a transaction: a command, or `PUT`, `GET`, `STATUS`, `RESET`. The other transactions have no line. -/
def asmLine (x : Transaction) : Option String :=
  match x with
  | .put m => some ("PUT " ++ hexBytes m)
  | .issue cw =>
    match decode cw with
    | .ok i => some (asm i)
    | .error _ => none
  | .getOutput => some "GET"
  | .readReg n => if n = 1 then some "STATUS" else none
  | .writeReg _ _ => none
  | .reset => some "RESET"

/-- R74: the pseudo-commands. The 16 bytes of `generateKey` come from HOST's secure random source, outside the core. -/
inductive Pseudo where
  | generateKey (key : Block)
  | encrypt (m : List Byte)
  | decrypt (c : List Byte)
  | bytesToState (b : Block)
  | stateToBytes
  | double (a : Byte)
  | multiply (a b : Byte)
  | roundKey (r : BitVec 4)
  | clrerr
deriving DecidableEq, Repr

/-- R74: the expansion of each pseudo-command. -/
def expandPseudo (p : Pseudo) : List Transaction :=
  match p with
  | .generateKey key => [.put (blockToBytes key), .issue (encode .ldkey)]
  | .encrypt m => [.put m, .issue (encode .ecbe), .getOutput]
  | .decrypt c => [.put c, .issue (encode .ecbd), .getOutput]
  | .bytesToState b => [.put (blockToBytes b), .issue (encode .ldst)]
  | .stateToBytes => [.issue (encode .stst), .getOutput]
  | .double a => [.issue (encode (.gfdbl a)), .getOutput]
  | .multiply a b => [.issue (encode (.gfmul a b)), .getOutput]
  | .roundKey r => [.issue (encode (.rdrk r)), .getOutput]
  | .clrerr => [.issue (encode .nop)]

end Sys2Proof.Machine
end

