-- ==== Sys2Proof/Tests/Slice0.lean ====
section
/-! SUPPORT. The model's own tests: what WellFormed refuses, every command's word written out from spec/30_encoding.md,
one-step results taken from spec/95_test_vectors.md, and for every statement with hypotheses a named witness that meets
them. -/

namespace Sys2Proof.Machine.Tests

set_option Elab.async false

/-! ## Helpers -/

/-- The `n` bytes of a number printed in hexadecimal, first byte first. -/
def bytesOf : Nat → Nat → List Byte
  | 0, _ => []
  | n + 1, v => BitVec.ofNat 8 (v / 256 ^ n) :: bytesOf n v

/-- The key of vector S1. -/
def katKey : Block := blockOfBytes (bytesOf 16 0x000102030405060708090a0b0c0d0e0f)

def blank : Config.Contents := ⟨⟨.zero, .zero, .zero, .zero⟩, Vector.replicate 44 .zero, ⟨.zero, .zero, .zero, .zero⟩, [], []⟩

/-- A state right after reset, of capacity 64. -/
def fresh : State := State.resetWith 64 0 blank

/-- The same after PUT `m`. -/
def loaded (m : List Byte) : State :=
  { fresh with ibuf := Memory.ofBytes m, ilen := BitVec.ofNat 32 m.length }

/-- The same with the key of S1 loaded and expanded, and the state matrix of vector X-1. -/
def ready (m : List Byte) : State :=
  { loaded m with
    key := katKey, w := keyExpand katKey, smat := bytesToState katKey, kv := true, rkv := true, sv := true, err := 0 }

/-- The same with a state matrix but no key. -/
def unkeyed : State := { fresh with smat := bytesToState katKey, sv := true, err := 0 }

/-- The state after a ConfigError. -/
def broken : State := { fresh with err := 1, fatal := true }

/-- One step in which HOST issues `cw`. -/
def issued (cw : Word32) (s : State) : Result := step (s.issueNext cw)

/-- The result is a next state that passes the check. -/
def passes (r : Result) (p : State → Bool) : Bool :=
  match r with
  | .next t => p t
  | .fault _ => false
  | .refused _ => false

/-- ERR and the bytes HOST would get. -/
def gives (err : BitVec 4) (v : List Byte) (t : State) : Bool :=
  t.err == err && memRead t .obuf 0 t.olen.toNat == some v

/-- ERR, SV and the state matrix, printed as its 16 bytes. -/
def holdsState (v : List Byte) (t : State) : Bool := t.err == 0 && t.sv && blockToBytes (stateToBytes t.smat) == v

theorem exists_of_passes {r : Result} {p : State → Bool} (h : passes r p = true) : ∃ t, r = .next t ∧ p t = true := by
  cases r with
  | next t => exact ⟨t, rfl, h⟩
  | fault _ => cases h
  | refused _ => cases h

/-! ## WellFormed refuses -/

theorem test_wf_rcon : (Instr.rcon 10).wellFormed = false ∧ (Instr.rcon 9).wellFormed = true := by decide
theorem test_wf_rdrk : (Instr.rdrk 11).wellFormed = false ∧ (Instr.rdrk 10).wellFormed = true := by decide
theorem test_wf_ark : (Instr.ark 11).wellFormed = false ∧ (Instr.ark 10).wellFormed = true := by decide
theorem test_wf_top : (Instr.ark 15).wellFormed = false ∧ (Instr.rcon 15).wellFormed = false := by decide

/-! ## Every command's word, written out from R61 to R67 -/

theorem test_decode_nop : decode 0b00000000_000000000000000000000000 = .ok .nop := by decide
theorem test_decode_gfdbl : decode 0b00010000_0000000000000000_10000000 = .ok (.gfdbl 0x80) := by decide
theorem test_decode_gfmul : decode 0b00010001_00000000_01010111_10000011 = .ok (.gfmul 0x57 0x83) := by decide
theorem test_decode_sbox : decode 0b00100000_0000000000000000_01010011 = .ok (.sbox 0x53) := by decide
theorem test_decode_isbox : decode 0b00100001_0000000000000000_11101101 = .ok (.isbox 0xed) := by decide
theorem test_decode_rcon : decode 0b00100010_00000000000000000000_1000 = .ok (.rcon 8) := by decide
theorem test_decode_ldkey : decode 0b00110000_000000000000000000000000 = .ok .ldkey := by decide
theorem test_decode_kexp : decode 0b00110001_000000000000000000000000 = .ok .kexp := by decide
theorem test_decode_rdrk : decode 0b00110010_00000000000000000000_1010 = .ok (.rdrk 10) := by decide
theorem test_decode_ldst : decode 0b01000000_000000000000000000000000 = .ok .ldst := by decide
theorem test_decode_stst : decode 0b01000001_000000000000000000000000 = .ok .stst := by decide
theorem test_decode_ark : decode 0b01000010_00000000000000000000_0011 = .ok (.ark 3) := by decide
theorem test_decode_subb : decode 0b01000011_000000000000000000000000 = .ok .subb := by decide
theorem test_decode_isubb : decode 0b01000100_000000000000000000000000 = .ok .isubb := by decide
theorem test_decode_shrow : decode 0b01000101_000000000000000000000000 = .ok .shrow := by decide
theorem test_decode_ishrow : decode 0b01000110_000000000000000000000000 = .ok .ishrow := by decide
theorem test_decode_mixc : decode 0b01000111_000000000000000000000000 = .ok .mixc := by decide
theorem test_decode_imixc : decode 0b01001000_000000000000000000000000 = .ok .imixc := by decide
theorem test_decode_encb : decode 0b01010000_000000000000000000000000 = .ok .encb := by decide
theorem test_decode_decb : decode 0b01010001_000000000000000000000000 = .ok .decb := by decide
theorem test_decode_pad : decode 0b01100000_000000000000000000000000 = .ok .pad := by decide
theorem test_decode_unpad : decode 0b01100001_000000000000000000000000 = .ok .unpad := by decide
theorem test_decode_ecbe : decode 0b01100010_000000000000000000000000 = .ok .ecbe := by decide
theorem test_decode_ecbd : decode 0b01100011_000000000000000000000000 = .ok .ecbd := by decide

/-- The reserved words of the encoding part of spec/95_test_vectors.md, each refused by its own reason. -/
theorem test_decode_reserved :
    decode 0x00000001 = .error .zeroField ∧ decode 0x10000100 = .error .zeroField ∧
    decode 0x11010000 = .error .zeroField ∧ decode 0x22000019 = .error .zeroField ∧
    decode 0x30800000 = .error .zeroField ∧ decode 0x63000001 = .error .zeroField ∧
    decode 0x2200000A = .error .indexRange ∧ decode 0x3200000B = .error .indexRange ∧
    decode 0x4200000F = .error .indexRange ∧ decode 0x01000000 = .error .reservedOpcode ∧
    decode 0x49000000 = .error .reservedOpcode ∧ decode 0x64000000 = .error .reservedOpcode ∧
    decode 0xFFFFFFFF = .error .reservedOpcode := by decide

theorem test_table_word : decodeTableWord 32 0x11005783 = some (.gfmul 0x57 0x83) := by decide

/-- R73: the examples of the assembler syntax. -/
theorem test_asm : asm (.gfmul 0x57 0x83) = "GFMUL 0x57, 0x83" ∧ asm (.rdrk 10) = "RDRK 10" := by decide +kernel

/-! ## One step, with the results of spec/95_test_vectors.md -/

/-- Program 4, lines 8 and 22. -/
theorem test_nop : passes (issued 0x00000000 { fresh with err := 2 }) (gives 0 []) = true := by decide +kernel
theorem test_nop_fatal : passes (issued 0x00000000 broken) (gives 1 []) = true := by decide +kernel

/-- G-3. -/
theorem test_gfdbl : passes (issued 0x100000FF fresh) (gives 0 [0xe5]) = true := by decide +kernel
theorem test_gfdbl_high_bit : passes (issued 0x10000080 fresh) (gives 0 [0x1b]) = true := by decide +kernel
theorem test_gfmul : passes (issued 0x11005783 fresh) (gives 0 [0xc1]) = true := by decide +kernel
theorem test_gfmul_top : passes (issued 0x1100FFFF fresh) (gives 0 [0x13]) = true := by decide +kernel

/-- T-2. -/
theorem test_sbox : passes (issued 0x20000053 fresh) (gives 0 [0xed]) = true := by decide +kernel
theorem test_isbox : passes (issued 0x210000ED fresh) (gives 0 [0x53]) = true := by decide +kernel
theorem test_rcon : passes (issued 0x22000009 fresh) (gives 0 [0x36]) = true := by decide +kernel
theorem test_rcon_range : passes (issued 0x2200000A fresh) (gives 3 []) = true := by decide +kernel

/-- K6. -/
theorem test_ldkey :
    passes (issued 0x30000000 (loaded (bytesOf 16 0x000102030405060708090a0b0c0d0e0f)))
      (fun t => statusWord t == 1 && t.key == katKey) = true := by decide +kernel
theorem test_ldkey_length :
    passes (issued 0x30000000 (loaded (bytesOf 15 0x0102030405060708090a0b0c0d0e0f)))
      (fun t => statusWord t == 0x18) = true := by decide +kernel
theorem test_kexp :
    passes (issued 0x31000000 { loaded [] with key := katKey, kv := true })
      (fun t => statusWord t == 3 && t.w.get 4 == ⟨0xd6, 0xaa, 0x74, 0xfd⟩ && t.w.get 43 == ⟨0x4d, 0x2b, 0x30, 0xc5⟩) =
      true := by decide +kernel
theorem test_kexp_no_key : passes (issued 0x31000000 fresh) (fun t => statusWord t == 0x40) = true := by decide +kernel
theorem test_rdrk :
    passes (issued 0x3200000A (ready [])) (gives 0 (bytesOf 16 0x13111d7fe3944a17f307a78b4d2b30c5)) = true := by
  decide +kernel
theorem test_rdrk_no_keys : passes (issued 0x3200000A fresh) (gives 4 []) = true := by decide +kernel

/-- X-5 and X-1. -/
theorem test_ldst :
    passes (issued 0x40000000 (loaded (bytesOf 16 0x00112233445566778899aabbccddeeff)))
      (fun t => statusWord t == 4 && t.smat.get 1 0 == 0x11 && t.smat.get 0 1 == 0x44) = true := by decide +kernel
theorem test_ldst_length :
    passes (issued 0x40000000 (ready (bytesOf 15 0))) (fun t => statusWord t == 0x27 && t.smat == bytesToState katKey) =
      true := by decide +kernel
theorem test_stst :
    passes (issued 0x41000000 (ready [])) (gives 0 (bytesOf 16 0x000102030405060708090a0b0c0d0e0f)) = true := by
  decide +kernel
theorem test_stst_no_state : passes (issued 0x41000000 fresh) (gives 4 []) = true := by decide +kernel
theorem test_ark :
    passes (issued 0x42000001 (ready [])) (holdsState (bytesOf 16 0xd6ab76fed6aa74fdd2af72fadaa678f1)) = true := by
  decide +kernel
theorem test_ark_no_round_keys : passes (issued 0x42000000 unkeyed) (fun t => statusWord t == 0x44) = true := by
  decide +kernel
theorem test_subb :
    passes (issued 0x43000000 (ready [])) (holdsState (bytesOf 16 0x637c777bf26b6fc53001672bfed7ab76)) = true := by
  decide +kernel
theorem test_isubb :
    passes (issued 0x44000000 (ready [])) (holdsState (bytesOf 16 0x52096ad53036a538bf40a39e81f3d7fb)) = true := by
  decide +kernel
theorem test_shrow :
    passes (issued 0x45000000 (ready [])) (holdsState (bytesOf 16 0x00050a0f04090e03080d02070c01060b)) = true := by
  decide +kernel
theorem test_ishrow :
    passes (issued 0x46000000 (ready [])) (holdsState (bytesOf 16 0x000d0a0704010e0b0805020f0c090603)) = true := by
  decide +kernel
theorem test_mixc :
    passes (issued 0x47000000 (ready [])) (holdsState (bytesOf 16 0x02070005060304010a0f080d0e0b0c09)) = true := by
  decide +kernel
theorem test_imixc :
    passes (issued 0x48000000 (ready [])) (holdsState (bytesOf 16 0x0a0f080d0e0b0c090207000506030401)) = true := by
  decide +kernel

/-- B-1 (the source's known-answer vector) and B-2. -/
theorem test_encb :
    passes (issued 0x50000000 (ready (bytesOf 16 0x00112233445566778899aabbccddeeff)))
      (fun t => gives 0 (bytesOf 16 0x69c4e0d86a7b0430d8cdb78070b4c55a) t && statusWord t == 3) = true := by decide +kernel
theorem test_encb_length :
    passes (issued 0x50000000 (ready (bytesOf 15 0))) (fun t => gives 2 [] t && t.sv) = true := by decide +kernel
theorem test_decb :
    passes (issued 0x51000000 (ready (bytesOf 16 0))) (gives 0 (bytesOf 16 0x7b1d29a16cf8ccab84f0b8a598e42fa6)) = true := by
  decide +kernel

/-- P2, P8. -/
theorem test_pad :
    passes (issued 0x60000000 (loaded (bytesOf 3 0x616263))) (gives 0 (bytesOf 16 0x6162630d0d0d0d0d0d0d0d0d0d0d0d0d)) =
      true := by decide +kernel
theorem test_pad_capacity :
    passes (issued 0x60000000 { loaded (List.replicate 32 0xaa) with cap := 32 }) (gives 5 []) = true := by decide +kernel

/-- P7. -/
theorem test_unpad : passes (issued 0x61000000 (loaded [0x01, 0x02, 0x03, 0x04, 0x03])) (gives 0 [0x01, 0x02]) = true := by
  decide +kernel
theorem test_unpad_zero : passes (issued 0x61000000 (loaded [0xaa, 0xbb, 0x00])) (gives 0 [0xaa, 0xbb, 0x00]) = true := by
  decide +kernel

/-- E3, E9. -/
theorem test_ecbe :
    passes (issued 0x62000000 (ready (bytesOf 3 0x616263)))
      (fun t => gives 0 (bytesOf 16 0xb08b1f809a035064420d1d754022ab55) t && statusWord t == 3) = true := by decide +kernel
theorem test_ecbe_no_key : passes (issued 0x62000000 fresh) (gives 4 []) = true := by decide +kernel
theorem test_ecbd :
    passes (issued 0x63000000 (ready (bytesOf 16 0xb08b1f809a035064420d1d754022ab55)))
      (gives 0 (bytesOf 3 0x616263)) = true := by decide +kernel

/-- E8: the last byte 00 strips nothing. -/
theorem test_ecbd_zero :
    passes (issued 0x63000000 (ready (bytesOf 16 0xc6a13b37878f5b826f4f8162a1c8d879))) (gives 0 (bytesOf 16 0)) = true := by
  decide +kernel

/-- R51, R19: STATUS read by HOST after program 4, line 20. -/
theorem test_status : passes (step { broken with host := [.readReg 1] }) (fun t => t.reply == .word 0x18) = true := by
  decide +kernel

/-! ## Sound states the witnesses use -/

theorem fresh_inv : fresh.Inv where
  cap_admissible := by decide
  ilen_le_cap := by decide
  olen_le_cap := by decide
  ibuf_holds := Memory.holds_nil
  obuf_holds := Memory.holds_nil
  err_is_code := by decide
  rkv_schedule h := by cases h
  fatal_no_key h := by cases h
  fatal_iff_config := by decide

theorem loaded_running {m : List Byte} (h : m.length ≤ 64) : (loaded m).Running := ⟨inv_putInput fresh_inv h, rfl⟩

theorem loaded_input {m : List Byte} (h : m.length ≤ 64) : (loaded m).Input m :=
  input_ofBytes rfl (toNat_length fresh_inv.cap_admissible h)

theorem ready_running {m : List Byte} (h : m.length ≤ 64) : (ready m).Running :=
  ⟨inv_complete (inv_putInput fresh_inv h) rfl fun _ => ⟨rfl, rfl⟩, rfl⟩

theorem ready_input {m : List Byte} (h : m.length ≤ 64) : (ready m).Input m :=
  input_ofBytes rfl (toNat_length fresh_inv.cap_admissible h)

theorem unkeyed_running : unkeyed.Running := ⟨inv_complete fresh_inv rfl (by simp [fresh, State.resetWith]), rfl⟩

theorem broken_inv : broken.Inv where
  cap_admissible := by decide
  ilen_le_cap := by decide
  olen_le_cap := by decide
  ibuf_holds := Memory.holds_nil
  obuf_holds := Memory.holds_nil
  err_is_code := by decide
  rkv_schedule h := by cases h
  fatal_no_key _ := rfl
  fatal_iff_config := by decide

/-! ## A witness for the hypotheses of every statement -/

theorem witness_EveryWellFormedCommandDecodesFromItsWord :
    (Instr.rcon 9).wellFormed = true ∧ (Instr.rdrk 10).wellFormed = true ∧ (Instr.ark 10).wellFormed = true := by decide

theorem witness_DecodedWordIsTheWordOfItsCommand : decode 0x22000009 = .ok (.rcon 9) := by decide

theorem witness_DecoderIsTheOpcodeTable :
    ⟨"RCON", 0x22000000, 0xFFFFFFF0, some 9⟩ ∈ opcodeTable ∧
    OpcodeRow.selects ⟨"RCON", 0x22000000, 0xFFFFFFF0, some 9⟩ 0x22000009 = true ∧
    (∀ row ∈ opcodeTable, row.selects 0x2200000A = false) ∧ (0x2200000A : Word32) &&& 0xFFFFFFF0 = 0x22000000 := by
  decide +kernel

theorem witness_ReservedOpcodeRaisesIllegalCommand :
    fresh.fatal = false ∧
    ∀ op ∈ [opField 0x01000000, opField 0x64000000, opField 0xFFFFFFFF],
      op ∉ ([0x00, 0x10, 0x11, 0x20, 0x21, 0x22, 0x30, 0x31, 0x32, 0x40, 0x41, 0x42, 0x43, 0x44, 0x45, 0x46,
        0x47, 0x48, 0x50, 0x51, 0x60, 0x61, 0x62, 0x63] : List Byte) := by
  refine ⟨rfl, fun op h => ?_⟩
  fin_cases h <;> decide +kernel

theorem witness_NonZeroZeroFieldRaisesIllegalCommand :
    fresh.fatal = false ∧
    (opField 0x00000001 = 0x00 ∧ (0x00000001 : Word32).extractLsb' 0 24 ≠ 0) ∧
    (opField 0x10000100 = 0x10 ∧ (0x10000100 : Word32).extractLsb' 8 16 ≠ 0) ∧
    (opField 0x11010000 = 0x11 ∧ (0x11010000 : Word32).extractLsb' 16 8 ≠ 0) ∧
    (opField 0x22000010 = 0x22 ∧ (0x22000010 : Word32).extractLsb' 4 20 ≠ 0) := by decide

theorem witness_IndexOutOfRangeRaisesIllegalCommand :
    fresh.fatal = false ∧
    (opField 0x3200000B = 0x32 ∧ 11 ≤ ((0x3200000B : Word32).extractLsb' 0 4).toNat) ∧
    (opField 0x4200000F = 0x42 ∧ 11 ≤ ((0x4200000F : Word32).extractLsb' 0 4).toNat) ∧
    (opField 0x2200000A = 0x22 ∧ 10 ≤ ((0x2200000A : Word32).extractLsb' 0 4).toNat) := by decide

theorem witness_StepRunsTheDecodedCommand :
    { fresh with host := [.issue 0x100000FF] }.host = .issue 0x100000FF :: [] ∧
    { fresh with host := [.writeReg 0 0x100000FF] }.host = .writeReg 0 0x100000FF :: [] ∧
    fresh.fatal = false ∧ decode 0x100000FF = .ok (.gfdbl 0xff) ∧ fresh.host = [] := by decide

theorem witness_FatalRefusesEveryCommand :
    broken.Inv ∧ broken.fatal = true ∧ (List.replicate 64 (0xaa : Byte)).length ≤ broken.cap ∧
    ∃ t, perform .reset broken = .next t ∧ t.fatal = false :=
  ⟨broken_inv, rfl, by decide, _, rfl, rfl⟩

theorem witness_PutInputWritesTheMessage :
    fresh.Inv ∧ ([] : List Byte).length ≤ fresh.cap ∧ (List.replicate 64 (0xaa : Byte)).length ≤ fresh.cap ∧
    fresh.cap < (List.replicate 65 (0xaa : Byte)).length := ⟨fresh_inv, by decide⟩

theorem witness_GetOutputReturnsTheValidBytes :
    fresh.Inv ∧ (fresh.withOutput [0x1b]).Inv ∧ 0 < (fresh.withOutput [0x1b]).olen.toNat :=
  ⟨fresh_inv, inv_withOutput fresh_inv rfl (by decide), by decide⟩

theorem witness_ReadRegReturnsThePortRegister : 4 ≤ 4 := by decide

theorem witness_WriteToOtherRegistersIsIgnored : (1 : Nat) ≠ 0 ∧ (2 : Nat) ≠ 0 := by decide

theorem witness_InstancesDoNotInteract :
    ∃ ys, stepInstance 1 [fresh, fresh.issueNext 0x100000FF, ready []] = .next ys ∧ (0 : Nat) ≠ 1 ∧
      [fresh, fresh.issueNext 0x100000FF, ready []][1]? = some (fresh.issueNext 0x100000FF) := by
  obtain ⟨t, ht, _⟩ := exists_of_passes test_gfdbl
  exact ⟨[fresh, t, ready []], by simp only [stepInstance, List.getElem?_cons_succ, List.getElem?_cons_zero]; rw [show
    step (fresh.issueNext 0x100000FF) = .next t from ht]; rfl, by decide, rfl⟩

theorem witness_NopClearsErr :
    fresh.fatal = false ∧ broken.fatal = true ∧ opField 0x00000001 = 0x00 ∧
    (0x00000001 : Word32).extractLsb' 0 24 ≠ 0 := by decide

theorem witness_GfdblDeliversTheDoubledByte :
    (loaded []).Running ∧ (fresh.fatal = false ∧ (1 : BitVec 16) ≠ 0) ∧ broken.fatal = true :=
  ⟨loaded_running (by decide), by decide, rfl⟩

theorem witness_GfmulDeliversTheProduct :
    (loaded []).Running ∧ (fresh.fatal = false ∧ (1 : BitVec 8) ≠ 0) ∧ broken.fatal = true :=
  ⟨loaded_running (by decide), by decide, rfl⟩

theorem witness_MultiplyLaws : (0x01 : Byte) ≠ 0 ∧ multiply 0x53 0xca = 1 := by decide

theorem witness_TableCommandsDeliverTheEntry :
    ((loaded []).Running ∧ (0 : BitVec 4).toNat ≤ 9 ∧ (9 : BitVec 4).toNat ≤ 9) ∧
    (fresh.fatal = false ∧ (1 : BitVec 16) ≠ 0 ∧ (1 : BitVec 20) ≠ 0 ∧ 10 ≤ (10 : BitVec 4).toNat) ∧ broken.fatal = true :=
  ⟨⟨loaded_running (by decide), by decide⟩, by decide, rfl⟩

theorem witness_TablesFollowTheirFormulas :
    ((0 : Byte) = 0 ∧ (0 : Byte) = 0) ∧ multiply 0x53 0xca = 0x01 ∧ 8 < 9 := by decide

theorem witness_LdkeyLoadsTheKeyOnce :
    ((loaded (bytesOf 16 0)).Running ∧ (loaded (bytesOf 16 0)).kv = false ∧ (loaded (bytesOf 16 0)).Input (bytesOf 16 0) ∧
      (bytesOf 16 0).length = 16) ∧
    ((ready []).fatal = false ∧ (ready []).kv = true) ∧
    (fresh.fatal = false ∧ fresh.kv = false ∧ fresh.ilen ≠ 16) ∧
    ((loaded (bytesOf 17 0)).fatal = false ∧ (loaded (bytesOf 17 0)).kv = false ∧ (loaded (bytesOf 17 0)).ilen ≠ 16) :=
  ⟨⟨loaded_running (by decide), rfl, loaded_input (by decide), rfl⟩, ⟨rfl, rfl⟩, by decide, by decide⟩

theorem witness_KexpWritesTheSchedule :
    ((ready []).fatal = false ∧ (ready []).kv = true) ∧ fresh.fatal = false ∧ fresh.kv = false :=
  ⟨⟨rfl, rfl⟩, rfl, rfl⟩

theorem witness_KeyExpandFollowsTheRecurrence : (4 ≤ 4 ∧ 4 < 44) ∧ (4 ≤ 43 ∧ 43 < 44) := by decide

theorem witness_RdrkDeliversTheRoundKey :
    ((ready []).Running ∧ (ready []).rkv = true ∧ (0 : BitVec 4).toNat ≤ 10 ∧ (10 : BitVec 4).toNat ≤ 10) ∧
    (fresh.fatal = false ∧ fresh.rkv = false) ∧ (1 : BitVec 20) ≠ 0 ∧ 11 ≤ (11 : BitVec 4).toNat :=
  ⟨⟨ready_running (by decide), rfl, by decide, by decide⟩, ⟨rfl, rfl⟩, by decide, by decide⟩

theorem witness_LdstLoadsTheState :
    ((loaded (bytesOf 16 0)).Running ∧ (loaded (bytesOf 16 0)).Input (bytesOf 16 0) ∧ (bytesOf 16 0).length = 16) ∧
    (fresh.fatal = false ∧ fresh.ilen ≠ 16) ∧ (loaded (bytesOf 17 0)).ilen ≠ 16 :=
  ⟨⟨loaded_running (by decide), loaded_input (by decide), rfl⟩, by decide, by decide⟩

theorem witness_StstDeliversTheState :
    ((ready []).Running ∧ (ready []).sv = true) ∧ fresh.fatal = false ∧ fresh.sv = false :=
  ⟨⟨ready_running (by decide), rfl⟩, rfl, rfl⟩

theorem witness_ArkAddsTheRoundKey :
    ((ready []).fatal = false ∧ (ready []).sv = true ∧ (ready []).rkv = true ∧ (10 : BitVec 4).toNat ≤ 10) ∧
    (fresh.fatal = false ∧ fresh.sv = false) ∧ (unkeyed.fatal = false ∧ unkeyed.sv = true ∧ unkeyed.rkv = false) ∧
    (1 : BitVec 20) ≠ 0 ∧ 11 ≤ (11 : BitVec 4).toNat :=
  ⟨⟨rfl, rfl, rfl, by decide⟩, ⟨rfl, rfl⟩, ⟨rfl, rfl, rfl⟩, by decide, by decide⟩

theorem witness_SubbAndIsubbSubstituteEveryByte :
    (unkeyed.fatal = false ∧ unkeyed.sv = true) ∧ fresh.fatal = false ∧ fresh.sv = false := ⟨⟨rfl, rfl⟩, rfl, rfl⟩

theorem witness_ShrowAndIshrowRotateTheRows :
    (unkeyed.fatal = false ∧ unkeyed.sv = true) ∧ fresh.fatal = false ∧ fresh.sv = false := ⟨⟨rfl, rfl⟩, rfl, rfl⟩

theorem witness_MixcMixesEveryColumn :
    (unkeyed.fatal = false ∧ unkeyed.sv = true ∧ (0x03 : Byte) = unkeyed.smat.get 3 0) ∧
    fresh.fatal = false ∧ fresh.sv = false := ⟨⟨rfl, rfl, by decide⟩, rfl, rfl⟩

theorem witness_ImixcMixesEveryColumnBack :
    (unkeyed.fatal = false ∧ unkeyed.sv = true ∧ (0x0f : Byte) = unkeyed.smat.get 3 3) ∧
    fresh.fatal = false ∧ fresh.sv = false := ⟨⟨rfl, rfl, by decide⟩, rfl, rfl⟩

theorem witness_BlockCommandsDeliverTheBlock :
    ((ready (bytesOf 16 0)).Running ∧ (ready (bytesOf 16 0)).rkv = true ∧ (ready (bytesOf 16 0)).Input (bytesOf 16 0) ∧
      (bytesOf 16 0).length = 16) ∧
    (Instr.decb ∈ [Instr.encb, .decb] ∧ fresh.fatal = false ∧ fresh.rkv = false) ∧
    ((ready (bytesOf 15 0)).fatal = false ∧ (ready (bytesOf 15 0)).rkv = true ∧ (ready (bytesOf 15 0)).ilen ≠ 16) :=
  ⟨⟨ready_running (by decide), rfl, ready_input (by decide), rfl⟩, by decide, rfl, rfl, by decide⟩

/-- The second state differs in S, SV and OBUF. -/
theorem witness_BlockResultDependsOnInputAndKey :
    Instr.encb ∈ [Instr.encb, .decb] ∧ (ready (bytesOf 16 0)).Running ∧
    ((ready (bytesOf 16 0)).withOutput [0x1b]).Running ∧ (ready (bytesOf 16 0)).rkv = true ∧
    ((ready (bytesOf 16 0)).withOutput [0x1b]).rkv = true ∧
    (ready (bytesOf 16 0)).key = ((ready (bytesOf 16 0)).withOutput [0x1b]).key ∧
    (ready (bytesOf 16 0)).Input (bytesOf 16 0) ∧ ((ready (bytesOf 16 0)).withOutput [0x1b]).Input (bytesOf 16 0) ∧
    (bytesOf 16 0).length = 16 :=
  ⟨by decide, ready_running (by decide), ⟨inv_withOutput (ready_running (by decide)).inv rfl (by decide), rfl⟩, rfl, rfl, rfl,
    ready_input (by decide), ready_input (m := bytesOf 16 0) (by decide), rfl⟩

theorem witness_PadLaw : [0x61, 0x62, 0x63].length ≤ 3 ∧ 3 < (pad [0x61, 0x62, 0x63]).length := by decide

theorem witness_PadDeliversThePaddedMessage :
    ((loaded (bytesOf 63 0)).Running ∧ (loaded (bytesOf 63 0)).Input (bytesOf 63 0) ∧
      (bytesOf 63 0).length ≠ (loaded (bytesOf 63 0)).cap) ∧
    (loaded (bytesOf 64 0)).Running ∧ (loaded (bytesOf 64 0)).ilen.toNat = (loaded (bytesOf 64 0)).cap :=
  ⟨⟨loaded_running (by decide), loaded_input (by decide), by decide⟩, loaded_running (by decide), by decide⟩

/-- P7: counts equal to the length, and one more. -/
theorem witness_UnpadStripsTheCountOfTheLastByte :
    ((loaded [0xaa, 0xbb, 0x03]).Running ∧ (loaded [0xaa, 0xbb, 0x03]).Input [0xaa, 0xbb, 0x03] ∧
      [0xaa, 0xbb, 0x03].getLast? = some (0x03 : Byte) ∧ (0x03 : Byte).toNat ≤ [0xaa, 0xbb, (0x03 : Byte)].length) ∧
    ((loaded [0xaa, 0xbb, 0x04]).Running ∧ (loaded [0xaa, 0xbb, 0x04]).Input [0xaa, 0xbb, 0x04] ∧
      [0xaa, 0xbb, 0x04].getLast? = some (0x04 : Byte) ∧ [0xaa, 0xbb, (0x04 : Byte)].length < (0x04 : Byte).toNat) ∧
    fresh.fatal = false ∧ fresh.ilen = 0 :=
  ⟨⟨loaded_running (by decide), loaded_input (by decide), by decide, by decide⟩,
    ⟨loaded_running (by decide), loaded_input (by decide), by decide, by decide⟩, rfl, rfl⟩

theorem witness_EcbeDeliversTheCiphertext :
    ((ready (bytesOf 63 0)).Running ∧ (ready (bytesOf 63 0)).kv = true ∧ (ready (bytesOf 63 0)).Input (bytesOf 63 0) ∧
      (bytesOf 63 0).length ≠ (ready (bytesOf 63 0)).cap) ∧
    (fresh.fatal = false ∧ fresh.kv = false) ∧
    (ready (bytesOf 64 0)).Running ∧ (ready (bytesOf 64 0)).kv = true ∧
    (ready (bytesOf 64 0)).ilen.toNat = (ready (bytesOf 64 0)).cap :=
  ⟨⟨ready_running (by decide), rfl, ready_input (by decide), by decide⟩, ⟨rfl, rfl⟩, ready_running (by decide), rfl,
    by decide⟩

/-- E2: the last byte 0x10 is the whole length. E8: the last byte 0xff is more. -/
theorem witness_EcbdDeliversThePlaintext :
    ((ready (bytesOf 16 0x954f64f2e4e86e9eee82d20216684899)).Running ∧
      (ready (bytesOf 16 0x954f64f2e4e86e9eee82d20216684899)).kv = true ∧
      (ready (bytesOf 16 0x954f64f2e4e86e9eee82d20216684899)).Input (bytesOf 16 0x954f64f2e4e86e9eee82d20216684899) ∧
      (bytesOf 16 0x954f64f2e4e86e9eee82d20216684899).length % 16 = 0 ∧
      (ecbDecryptBlocks (bytesOf 16 0x954f64f2e4e86e9eee82d20216684899) (keyExpand katKey)).getLast? = some 0x10 ∧
      (0x10 : Byte).toNat ≤ (bytesOf 16 0x954f64f2e4e86e9eee82d20216684899).length) ∧
    ((ready (bytesOf 16 0x69c4e0d86a7b0430d8cdb78070b4c55a)).Running ∧
      (ready (bytesOf 16 0x69c4e0d86a7b0430d8cdb78070b4c55a)).kv = true ∧
      (ready (bytesOf 16 0x69c4e0d86a7b0430d8cdb78070b4c55a)).Input (bytesOf 16 0x69c4e0d86a7b0430d8cdb78070b4c55a) ∧
      (bytesOf 16 0x69c4e0d86a7b0430d8cdb78070b4c55a).length % 16 = 0 ∧
      (ecbDecryptBlocks (bytesOf 16 0x69c4e0d86a7b0430d8cdb78070b4c55a) (keyExpand katKey)).getLast? = some 0xff ∧
      (bytesOf 16 0x69c4e0d86a7b0430d8cdb78070b4c55a).length < (0xff : Byte).toNat) ∧
    (fresh.fatal = false ∧ fresh.kv = false) ∧
    ((ready (bytesOf 17 0)).fatal = false ∧ (ready (bytesOf 17 0)).kv = true ∧ (ready (bytesOf 17 0)).ilen.toNat % 16 ≠ 0) ∧
    (ready []).fatal = false ∧ (ready []).kv = true ∧ (ready []).ilen = 0 :=
  ⟨⟨ready_running (by decide), rfl, ready_input (by decide), by decide, by decide +kernel, by decide⟩,
    ⟨ready_running (by decide), rfl, ready_input (by decide), by decide, by decide +kernel, by decide⟩, ⟨rfl, rfl⟩,
    ⟨rfl, rfl, by decide⟩, rfl, rfl, rfl⟩

theorem witness_EcbBlocksAreEncryptedIndependently :
    16 * 0 < (pad []).length ∧ 16 * 0 + 16 ≤ (List.replicate 32 (0xaa : Byte)).length ∧
    16 * 1 + 16 ≤ (List.replicate 32 (0xaa : Byte)).length ∧
    ((List.replicate 32 (0xaa : Byte)).drop (16 * 0)).take 16 = ((List.replicate 32 (0xaa : Byte)).drop (16 * 1)).take 16 := by
  decide

theorem witness_DecryptAfterEncryptReturnsTheMessage :
    (ready []).Running ∧ (ready []).kv = true ∧ ([] : List Byte).length < (ready []).cap ∧
    (bytesOf 63 0).length < (ready []).cap := ⟨ready_running (by decide), rfl, by decide, by decide⟩

theorem witness_RaisingChangesOnlyErrAndFatal :
    (∃ t, exec .ldkey fresh = .next t ∧ fresh.fatal = false ∧ t.err ≠ 0) ∧
    ∃ t, hostIssue 0xFFFFFFFF fresh = .next t ∧ t.err ≠ 0 := by
  obtain ⟨t, ht, h⟩ := exists_of_passes (r := exec .ldkey fresh) (p := fun t => t.err == 1) (by decide +kernel)
  obtain ⟨u, hu, h'⟩ := exists_of_passes (r := hostIssue 0xFFFFFFFF fresh) (p := fun t => t.err == 3) (by decide +kernel)
  exact ⟨⟨t, ht, rfl, by simp_all⟩, u, hu, by simp_all⟩

/-- LDKEY with a key loaded and no input, ARK with a state and no round keys, and a command that raises. -/
theorem witness_SequenceErrorRule :
    (Instr.ldkey.wellFormed = true ∧ (ready []).fatal = false ∧ sequenceFails .ldkey (ready []) = true) ∧
    ((Instr.ark 10).wellFormed = true ∧ unkeyed.fatal = false ∧ sequenceFails (.ark 10) unkeyed = true) ∧
    ∃ t, exec .kexp fresh = .next t ∧ t.err = 4 := by
  obtain ⟨t, ht, h⟩ := exists_of_passes (r := exec .kexp fresh) (p := fun t => t.err == 4) (by decide +kernel)
  exact ⟨⟨rfl, rfl, rfl⟩, ⟨rfl, rfl, rfl⟩, t, ht, by simpa using h⟩

theorem witness_FormatErrorRule :
    (fresh.fatal = false ∧ sequenceFails .ldst (loaded (bytesOf 17 0)) = false ∧
      formatFails .ldst (loaded (bytesOf 17 0)) = true) ∧
    (sequenceFails .ecbd (ready []) = false ∧ formatFails .ecbd (ready []) = true) ∧
    ∃ t, exec .unpad fresh = .next t ∧ t.err = 2 := by
  obtain ⟨t, ht, h⟩ := exists_of_passes (r := exec .unpad fresh) (p := fun t => t.err == 2) (by decide +kernel)
  exact ⟨⟨rfl, rfl, by decide⟩, ⟨rfl, by decide⟩, t, ht, by simpa using h⟩

theorem witness_KeyIsWrittenOnceByLdkey :
    (∃ t, exec .ldkey (loaded (bytesOf 16 0)) = .next t ∧ t.kv ≠ (loaded (bytesOf 16 0)).kv) ∧
    (∃ t, perform (.issue 0x30000000) (ready []) = .next t) ∧ (ready []).kv = true ∧
      Transaction.issue 0x30000000 ≠ .reset := by
  obtain ⟨t, ht, h⟩ := exists_of_passes (r := exec .ldkey (loaded (bytesOf 16 0))) (p := fun t => t.kv) (by decide +kernel)
  obtain ⟨u, hu, _⟩ := exists_of_passes (r := perform (.issue 0x30000000) (ready [])) (p := fun t => t.kv) (by decide +kernel)
  exact ⟨⟨t, ht, by rw [h]; decide⟩, ⟨u, hu⟩, rfl, by decide⟩

theorem witness_OnlyConfigErrorSetsFatal :
    (fresh.fatal = false ∧ fresh.kv = false ∧ fresh.ilen ≠ 16) ∧ ∃ t, exec .ldkey fresh = .next t ∧ t.fatal = true := by
  obtain ⟨t, ht, h⟩ := exists_of_passes (r := exec .ldkey fresh) (p := fun t => t.fatal) (by decide +kernel)
  exact ⟨by decide, t, ht, h⟩

theorem witness_ScheduleIsWrittenOnlyByTheKeyExpansion :
    (∃ t, exec .kexp { fresh with key := katKey, kv := true } = .next t ∧ t.rkv ≠ fresh.rkv) ∧
    (∃ t, perform (.put []) (ready []) = .next t) ∧ (ready []).rkv = true ∧ Transaction.put [] ≠ .reset := by
  obtain ⟨t, ht, h⟩ :=
    exists_of_passes (r := exec .kexp { fresh with key := katKey, kv := true }) (p := fun t => t.rkv) (by decide +kernel)
  exact ⟨⟨t, ht, by rw [h]; decide⟩, ⟨_, rfl⟩, rfl, by decide⟩

theorem witness_StateValidBitRule :
    (∃ t, exec .ldst (loaded (bytesOf 16 0)) = .next t ∧ (loaded (bytesOf 16 0)).sv = false ∧ t.sv = true) ∧
    (∃ t, exec .encb (ready (bytesOf 16 0)) = .next t ∧ (ready (bytesOf 16 0)).sv = true ∧ t.sv = false ∧
      (ready (bytesOf 16 0)).fatal = false ∧ discardsState .encb = true ∧ t.err = 0) := by
  obtain ⟨t, ht, h⟩ := exists_of_passes (r := exec .ldst (loaded (bytesOf 16 0))) (p := fun t => t.sv) (by decide +kernel)
  obtain ⟨u, hu, h'⟩ :=
    exists_of_passes (r := exec .encb (ready (bytesOf 16 0))) (p := fun t => !t.sv && t.err == 0) (by decide +kernel)
  simp only [Bool.and_eq_true, Bool.not_eq_true', beq_iff_eq] at h'
  exact ⟨⟨t, ht, rfl, h⟩, u, hu, rfl, h'.1, rfl, rfl, h'.2⟩

theorem witness_FrameOfOutputCommands :
    (∃ t, writesOutputOnly .stst = true ∧ fresh.Running ∧ exec .stst fresh = .next t ∧ t.err ≠ 0) ∧
    (∃ t, writesOutputOnly (.gfdbl 0xff) = true ∧ fresh.Running ∧ exec (.gfdbl 0xff) fresh = .next t ∧ t.err = 0 ∧
      t.olen.toNat ≤ 1 ∧ Instr.gfdbl 0xff ≠ .unpad) := by
  obtain ⟨t, ht, h⟩ := exists_of_passes (r := exec .stst fresh) (p := fun t => t.err == 4) (by decide +kernel)
  obtain ⟨u, hu, h'⟩ :=
    exists_of_passes (r := exec (.gfdbl 0xff) fresh) (p := fun t => t.err == 0 && t.olen == 1) (by decide +kernel)
  simp only [Bool.and_eq_true, beq_iff_eq] at h h'
  exact ⟨⟨t, rfl, ⟨fresh_inv, rfl⟩, ht, by rw [h]; decide⟩, u, rfl, ⟨fresh_inv, rfl⟩, hu, h'.1, by rw [h'.2]; decide, by decide⟩

theorem witness_FrameOfRegisterCommands :
    writesRegistersOnly .subb = true ∧ Instr.subb ≠ .ldkey ∧ Instr.subb ≠ .kexp ∧ Instr.subb ≠ .ldst ∧
    writesState .kexp = false ∧ ∃ t, exec .subb unkeyed = .next t := by
  obtain ⟨t, ht, _⟩ := exists_of_passes (r := exec .subb unkeyed) (p := fun t => t.sv) (by decide +kernel)
  exact ⟨rfl, by decide, by decide, by decide, rfl, t, ht⟩

theorem witness_FrameOfBlockCommands :
    (∃ t, discardsState .encb = true ∧ (ready (bytesOf 16 0)).Running ∧ exec .encb (ready (bytesOf 16 0)) = .next t ∧
      t.err = 0 ∧ t.olen.toNat ≤ 16) ∧
    (∃ t, discardsState .ecbe = true ∧ fresh.Running ∧ exec .ecbe fresh = .next t ∧ t.err ≠ 0) := by
  obtain ⟨u, hu, h'⟩ :=
    exists_of_passes (r := exec .encb (ready (bytesOf 16 0))) (p := fun t => t.err == 0 && t.olen == 16) (by decide +kernel)
  obtain ⟨t, ht, h⟩ := exists_of_passes (r := exec .ecbe fresh) (p := fun t => t.err == 4) (by decide +kernel)
  simp only [Bool.and_eq_true, beq_iff_eq] at h h'
  exact ⟨⟨u, rfl, ready_running (by decide), hu, h'.1, by rw [h'.2]; decide⟩, t, rfl, ⟨fresh_inv, rfl⟩, ht, by rw [h]; decide⟩

theorem witness_NoCommandHangsOrFaults : fresh.Inv ∧ broken.Inv ∧ (ready (bytesOf 64 0)).Inv :=
  ⟨fresh_inv, broken_inv, (ready_running (by decide)).inv⟩

theorem witness_EveryStepKeepsTheInvariant :
    (fresh.issueNext 0x100000FF).Inv ∧ ∃ t, step (fresh.issueNext 0x100000FF) = .next t := by
  obtain ⟨t, ht, _⟩ := exists_of_passes test_gfdbl
  exact ⟨inv_host fresh_inv _ _, t, ht⟩

theorem witness_RunsNeverStop :
    State.Inv { fresh with host := [.put (List.replicate 64 0xaa), .issue 0x62000000], reply := .none } ∧
    ∀ m, Transaction.put m ∈ [Transaction.put (List.replicate 64 0xaa), .issue 0x62000000] → m.length ≤ fresh.cap := by
  refine ⟨inv_host fresh_inv _ _, fun m hm => ?_⟩
  obtain rfl : m = List.replicate 64 0xaa := by simpa using hm
  decide

theorem witness_ResetStateIsSound : Config.AdmissibleCap 32 ∧ Config.AdmissibleCap (2 ^ 31 - 16) := by decide

end Sys2Proof.Machine.Tests
end

/-! SUPPORT. The rules of spec/10_state.md: what a command and a transaction can do, one named case for
each way, and the proofs of the invariant, of the valid-bit rules and of the frames that are read off those cases. -/

namespace Sys2Proof.Machine

/-! ## Frames of the named updates -/

theorem SameRegisters.refl (s : State) : SameRegisters s s := ⟨rfl, rfl, rfl, rfl, rfl, rfl, rfl, rfl⟩

theorem CommandError.code_ne_zero (e : CommandError) : e.code ≠ 0 := by cases e <;> decide

theorem CommandError.isFatal_eq_false {e : CommandError} (he : e ≠ .config) : e.isFatal = false := by
  cases e with
  | config => exact absurd rfl he
  | format | illegalCommand | sequence | capacity => rfl

/-- R176: an error that is not ConfigError leaves FATAL as it is. -/
theorem raise_fatal_eq {e : CommandError} (he : e ≠ .config) (s : State) : (raise e s).fatal = s.fatal := by
  simp [CommandError.isFatal_eq_false he]

theorem sameRegisters_raise {e : CommandError} (he : e ≠ .config) (s : State) : SameRegisters s (raise e s) :=
  { SameRegisters.refl s with fatal := raise_fatal_eq he s }

/-! ## The three kinds of command (R32) -/

/-- The commands that write registers only are those that neither produce output nor discard S. -/
theorem writesRegistersOnly_eq (i : Instr) : writesRegistersOnly i = (!writesOutputOnly i && !discardsState i) := by
  cases i <;> rfl

theorem discardsState_eq_false {i : Instr} (h : writesOutputOnly i = true) : discardsState i = false := by
  cases i <;> cases h <;> rfl

theorem writesRegistersOnly_of_writesState {i : Instr} (h : writesState i = true) : writesRegistersOnly i = true := by
  cases i <;> cases h <;> rfl

/-! ## What delivering a result does -/

theorem Delivers.drawn {s t : State} (h : Delivers s t) : DeliversDrawn s t := by
  obtain ⟨v, hv, rfl⟩ := h
  exact ⟨v, s.draws, hv, rfl⟩

theorem Delivers.draws_eq {s t : State} (h : Delivers s t) : t.draws = s.draws := by
  obtain ⟨v, _, rfl⟩ := h
  rfl

namespace DeliversDrawn

variable {s t : State}

theorem sameRegisters (h : DeliversDrawn s t) : SameRegisters s t := by
  obtain ⟨v, d, _, rfl⟩ := h
  exact ⟨rfl, rfl, rfl, rfl, rfl, rfl, rfl, rfl⟩

theorem sameInput (h : DeliversDrawn s t) : SameInput s t := by
  obtain ⟨v, d, _, rfl⟩ := h
  exact ⟨rfl, fun _ => rfl, rfl, rfl⟩

theorem err_eq (h : DeliversDrawn s t) : t.err = 0 := by
  obtain ⟨v, d, _, rfl⟩ := h
  rfl

/-- R24: no byte of OBUF at index OLEN or above holds a value. -/
theorem read1_obuf_eq_none (h : DeliversDrawn s t) (hc : Config.AdmissibleCap s.cap) {a : Nat}
    (ha : t.olen.toNat ≤ a) : Memory.read1 t.obuf a = none := by
  obtain ⟨v, d, hv, rfl⟩ := h
  have hlen : v.length ≤ a := by simpa only [delivered, toNat_length hc hv] using ha
  simp only [delivered, Memory.read1_below, if_neg (Nat.not_lt.2 hlen)]

theorem inv (h : DeliversDrawn s t) (hs : s.Inv) (hf : s.fatal = false) : t.Inv := by
  obtain ⟨v, d, hv, rfl⟩ := h
  have hd : State.Inv { s with draws := d } := inv_scratch hs s.smat s.sv d
  have hout : delivered v { s with draws := d } = { s with draws := d }.withOutput v := by
    simp only [delivered, State.withOutput, Memory.below_writeBytes_zero hs.obuf_holds.wf]
  exact hout ▸ inv_withOutput hd hf hv

end DeliversDrawn

/-! ## What executing a command can do -/

/-- The ways in which executing the command `i` can take `s` to a next state, told apart by what they write (R32). -/
inductive Executes (s : State) : Instr → State → Prop
  /-- R171: refused under FATAL. -/
  | refused (i : Instr) (hf : s.fatal = true) : Executes s i s
  /-- R176: one error; ConfigError only by LDKEY with no key loaded (R172). -/
  | raised (i : Instr) (e : CommandError) (hf : s.fatal = false) (he : e = .config → i = .ldkey ∧ s.kv = false) :
      Executes s i (raise e s)
  /-- OBUF and OLEN and no register. -/
  | output {i : Instr} {t : State} (hf : s.fatal = false) (hi : writesOutputOnly i = true) (hd : DeliversDrawn s t)
      (hn : i ≠ .unpad → t.draws = s.draws) : Executes s i t
  /-- OBUF and OLEN, with the state matrix as scratch. -/
  | block {i : Instr} {t : State} (hf : s.fatal = false) (hi : i = .encb ∨ i = .decb)
      (hd : DeliversDrawn (discardState s) t) : Executes s i t
  /-- The same, after the key expansion. -/
  | ecb {i : Instr} {t : State} (hf : s.fatal = false) (hi : i = .ecbe ∨ i = .ecbd) (hk : s.kv = true)
      (hd : DeliversDrawn (discardState (expandKey s)) t) : Executes s i t
  | nop (hf : s.fatal = false) : Executes s .nop { s with err := 0 }
  | ldkey (hf : s.fatal = false) (hk : s.kv = false) (k : Block) :
      Executes s .ldkey { s with key := k, kv := true, err := 0 }
  | kexp (hf : s.fatal = false) (hk : s.kv = true) :
      Executes s .kexp { s with w := keyExpand s.key, rkv := true, err := 0 }
  | ldst (hf : s.fatal = false) (x : Mat) : Executes s .ldst { s with smat := x, sv := true, err := 0 }
  /-- A transform of the state matrix (R121 to R127). -/
  | transform {i : Instr} (hf : s.fatal = false) (hi : writesState i = true) (hl : i ≠ .ldst) (x : Mat) :
      Executes s i { s with smat := x, err := 0 }

theorem Effect.executes {i : Instr} {s t : State} (hf : s.fatal = false) (h : Effect i s t) : Executes s i t := by
  cases i with
  | nop => exact h ▸ .nop hf
  | gfdbl | gfmul | sbox | isbox | rcon | pad => exact .output hf rfl (Delivers.drawn h) fun _ => Delivers.draws_eq h
  | rdrk | stst => exact .output hf rfl h.2.drawn fun _ => h.2.draws_eq
  | unpad => exact .output hf rfl h fun hne => absurd rfl hne
  | ldkey => obtain ⟨hk, k, rfl⟩ := h; exact .ldkey hf hk k
  | kexp => obtain ⟨hk, rfl⟩ := h; exact .kexp hf hk
  | ldst => obtain ⟨x, rfl⟩ := h; exact .ldst hf x
  | ark => obtain ⟨_, _, x, rfl⟩ := h; exact .transform hf rfl (by simp) x
  | subb | isubb | shrow | ishrow | mixc | imixc => obtain ⟨_, x, rfl⟩ := h; exact .transform hf rfl (by simp) x
  | encb => exact .block hf (.inl rfl) h.2.drawn
  | decb => exact .block hf (.inr rfl) h.2.drawn
  | ecbe => exact .ecb hf (.inl rfl) h.1 h.2.drawn
  | ecbd => exact .ecb hf (.inr rfl) h.1 h.2

theorem executes_of_exec {i : Instr} {s t : State} (h : exec i s = .next t) : Executes s i t := by
  rcases exec_cases h with ⟨hf, rfl⟩ | ⟨hf, e, he, rfl⟩ | ⟨hf, heff⟩
  · exact .refused i hf
  · exact .raised i e hf fun hc => ⟨(he hc).1, (he hc).2.1⟩
  · exact heff.executes hf

namespace Executes

variable {i : Instr} {s t : State}

/-- No command writes IBUF, ILEN or CAP. -/
theorem sameInput (h : Executes s i t) : SameInput s t ∧ t.cap = s.cap := by
  cases h with
  | output _ _ hd => exact ⟨hd.sameInput, hd.sameRegisters.cap⟩
  | block _ _ hd => exact ⟨{ hd.sameInput with }, hd.sameRegisters.cap⟩
  | ecb _ _ _ hd => exact ⟨{ hd.sameInput with }, hd.sameRegisters.cap⟩
  | refused | raised | nop | ldkey | kexp | ldst | transform => exact ⟨⟨rfl, fun _ => rfl, rfl, rfl⟩, rfl⟩

/-- R17: only LDKEY writes FATAL. -/
theorem fatal_eq (h : Executes s i t) (hi : i ≠ .ldkey) : t.fatal = s.fatal := by
  cases h with
  | raised _ e _ he => exact raise_fatal_eq (fun hc => hi (he hc).1) s
  | output _ _ hd => exact hd.sameRegisters.fatal
  | block _ _ hd => exact hd.sameRegisters.fatal
  | ecb _ _ _ hd => exact hd.sameRegisters.fatal
  | refused | nop | ldkey | kexp | ldst | transform => rfl

/-- R11, R14: KEY and KV change only by a first LDKEY that succeeds. -/
theorem of_key_kv_ne (h : Executes s i t) (hne : t.key ≠ s.key ∨ t.kv ≠ s.kv) :
    i = .ldkey ∧ s.kv = false ∧ t.kv = true ∧ t.err = 0 := by
  cases h with
  | ldkey _ hk k => exact ⟨rfl, hk, rfl, rfl⟩
  | output _ _ hd => simp [hd.sameRegisters.key, hd.sameRegisters.kv] at hne
  | block _ _ hd => simp [hd.sameRegisters.key, hd.sameRegisters.kv] at hne
  | ecb _ _ _ hd => simp [hd.sameRegisters.key, hd.sameRegisters.kv] at hne
  | refused | raised | nop | kexp | ldst | transform => simp at hne

theorem key_kv_eq (h : Executes s i t) (hi : i ≠ .ldkey) : t.key = s.key ∧ t.kv = s.kv := by
  by_contra hne
  exact hi (h.of_key_kv_ne (not_and_or.1 hne)).1

/-- R12, R15: W and RKV change only by the key expansion, with a key loaded. -/
theorem of_w_rkv_ne (h : Executes s i t) (hne : t.w ≠ s.w ∨ t.rkv ≠ s.rkv) :
    i ∈ [Instr.kexp, .ecbe, .ecbd] ∧ s.kv = true ∧ t.rkv = true ∧ t.w = keyExpand s.key := by
  cases h with
  | kexp _ hk => exact ⟨by simp, hk, rfl, rfl⟩
  | ecb _ hi hk hd =>
    exact ⟨by simpa using Or.inr hi, hk, hd.sameRegisters.rkv, by simpa using hd.sameRegisters.w⟩
  | output _ _ hd => simp [hd.sameRegisters.w, hd.sameRegisters.rkv] at hne
  | block _ _ hd => simp [hd.sameRegisters.w, hd.sameRegisters.rkv] at hne
  | refused | raised | nop | ldkey | ldst | transform => simp at hne

theorem w_rkv_eq (h : Executes s i t) (hi : i ∉ [Instr.kexp, .ecbe, .ecbd]) : t.w = s.w ∧ t.rkv = s.rkv := by
  by_contra hne
  exact hi (h.of_w_rkv_ne (not_and_or.1 hne)).1

/-- R16: only a successful LDST sets SV. -/
theorem of_sv_set (h : Executes s i t) (hs : s.sv = false) (ht : t.sv = true) : i = .ldst ∧ t.err = 0 := by
  cases h with
  | ldst => exact ⟨rfl, rfl⟩
  | output _ _ hd => simp [hd.sameRegisters.sv, hs] at ht
  | block _ _ hd => simp [hd.sameRegisters.sv] at ht
  | ecb _ _ _ hd => simp [hd.sameRegisters.sv] at ht
  | refused | raised | nop | ldkey | kexp | transform => simp [hs] at ht

/-- R16: only a successful ENCB, DECB, ECBE or ECBD clears SV. -/
theorem of_sv_cleared (h : Executes s i t) (hs : s.sv = true) (ht : t.sv = false) :
    discardsState i = true ∧ t.err = 0 := by
  cases h with
  | block _ hi hd => exact ⟨by rcases hi with rfl | rfl <;> rfl, hd.err_eq⟩
  | ecb _ hi _ hd => exact ⟨by rcases hi with rfl | rfl <;> rfl, hd.err_eq⟩
  | output _ _ hd => simp [hd.sameRegisters.sv, hs] at ht
  | refused | raised | nop | ldkey | kexp | ldst | transform => simp [hs] at ht

theorem sv_eq (h : Executes s i t) (hd : discardsState i = false) (hi : i ≠ .ldst) : t.sv = s.sv := by
  cases hs : s.sv with
  | false => exact Bool.eq_false_iff.2 fun ht => hi (h.of_sv_set hs ht).1
  | true => exact Bool.eq_true_of_not_eq_false fun ht => by simp [(h.of_sv_cleared hs ht).1] at hd

/-- What the commands that produce output can do in a running state. -/
theorem of_writesOutputOnly (h : Executes s i t) (hf : s.fatal = false) (hi : writesOutputOnly i = true) :
    (∃ e, e ≠ .config ∧ t = raise e s) ∨ (DeliversDrawn s t ∧ (i ≠ .unpad → t.draws = s.draws)) := by
  cases h with
  | refused _ hf' => simp [hf] at hf'
  | raised _ e _ he => exact .inl ⟨e, (by rintro rfl; cases (he rfl).1; cases hi), rfl⟩
  | output _ _ hd hn => exact .inr ⟨hd, hn⟩
  | block _ hb => rcases hb with rfl | rfl <;> cases hi
  | ecb _ hb => rcases hb with rfl | rfl <;> cases hi
  | nop | ldkey | kexp | ldst => cases hi
  | transform _ hw => simpa [writesRegistersOnly_eq, hi] using writesRegistersOnly_of_writesState hw

/-- What the block and ECB commands can do in a running state. -/
theorem of_discardsState (h : Executes s i t) (hf : s.fatal = false) (hi : discardsState i = true) :
    (∃ e, e ≠ .config ∧ t = raise e s) ∨ DeliversDrawn (discardState s) t ∨
      (s.kv = true ∧ DeliversDrawn (discardState (expandKey s)) t) := by
  cases h with
  | refused _ hf' => simp [hf] at hf'
  | raised _ e _ he => exact .inl ⟨e, (by rintro rfl; cases (he rfl).1; cases hi), rfl⟩
  | block _ _ hd => exact .inr (.inl hd)
  | ecb _ _ hk hd => exact .inr (.inr ⟨hk, hd⟩)
  | output _ ho => simp [discardsState_eq_false ho] at hi
  | nop | ldkey | kexp | ldst => cases hi
  | transform _ hw => simpa [writesRegistersOnly_eq, hi] using writesRegistersOnly_of_writesState hw

/-- R16: a successful ENCB, DECB, ECBE or ECBD leaves SV = 0. -/
theorem sv_eq_false (h : Executes s i t) (hf : s.fatal = false) (hi : discardsState i = true) (ht : t.err = 0) :
    t.sv = false := by
  rcases h.of_discardsState hf hi with ⟨e, _, rfl⟩ | hd | ⟨_, hd⟩
  · exact absurd ht e.code_ne_zero
  · exact hd.sameRegisters.sv
  · exact hd.sameRegisters.sv

/-- R32: the commands that write registers leave OBUF and OLEN alone, and no free value is drawn. -/
theorem sameOutput_of_writesRegistersOnly (h : Executes s i t) (hi : writesRegistersOnly i = true) :
    SameOutput s t ∧ t.draws = s.draws := by
  cases h with
  | output _ ho => simp [writesRegistersOnly_eq, ho] at hi
  | block _ hb => rcases hb with rfl | rfl <;> cases hi
  | ecb _ hb => rcases hb with rfl | rfl <;> cases hi
  | refused | raised | nop | ldkey | kexp | ldst | transform => exact ⟨⟨rfl, fun _ => rfl⟩, rfl⟩

/-- R13: of the commands that write registers only LDST and the transforms write S. -/
theorem smat_eq (h : Executes s i t) (hi : writesRegistersOnly i = true) (hs : writesState i = false) :
    t.smat = s.smat := by
  cases h with
  | output _ ho => simp [writesRegistersOnly_eq, ho] at hi
  | block _ hb => rcases hb with rfl | rfl <;> cases hi
  | ecb _ hb => rcases hb with rfl | rfl <;> cases hi
  | ldst => cases hs
  | transform _ hw => simp [hw] at hs
  | refused | raised | nop | ldkey | kexp => rfl

/-- R29: every command keeps the invariant of sound states. -/
theorem inv (h : Executes s i t) (hs : s.Inv) : t.Inv := by
  cases h with
  | refused => exact hs
  | raised _ e hf he => exact inv_raise hs hf fun hc => (he hc).2
  | output hf _ hd => exact hd.inv hs hf
  | block hf _ hd => exact hd.inv (inv_discardState hs) hf
  | ecb hf _ hk hd => exact hd.inv (inv_discardState (inv_expandKey hs hk)) hf
  | nop hf => exact inv_complete hs hf hs.rkv_schedule
  | ldkey hf hk => exact inv_complete hs hf fun hr => absurd (hs.rkv_schedule hr).1 (by simp [hk])
  | kexp hf hk => exact inv_complete hs hf fun _ => ⟨hk, rfl⟩
  | ldst hf => exact inv_complete hs hf hs.rkv_schedule
  | transform hf => exact inv_complete hs hf hs.rkv_schedule

end Executes

/-! ## What a transaction can do -/

/-- The ways in which a transaction of HOST can take `s` to a next state. -/
inductive Performs (s : State) : Transaction → State → Prop
  /-- R48: the message and its length go to the input. -/
  | put (m : List Byte) (hm : m.length ≤ s.cap) :
      Performs s (.put m) { s with
        ibuf := Memory.below (Memory.writeBytes s.ibuf 0 m) m.length
        ilen := BitVec.ofNat 32 m.length }
  /-- R49: a command word that decodes is executed. -/
  | executed {x : Transaction} {i : Instr} {t : State} (h : Executes s i t) : Performs s x t
  /-- R175: a reserved command word raises IllegalCommand. -/
  | reserved (x : Transaction) (hf : s.fatal = false) : Performs s x (raise .illegalCommand s)
  /-- R50, R51: something is returned to HOST. -/
  | answered (x : Transaction) (r : Reply) : Performs s x { s with reply := r }
  /-- R171, D4: refused under FATAL, or a write that is ignored. -/
  | ignored (x : Transaction) : Performs s x s
  /-- R52: the reset state. -/
  | reset (draws : Nat) (left : Config.Contents) :
      Performs s .reset { State.resetWith s.cap draws left with host := s.host }

theorem performs_of_hostIssue {cw : Word32} {s t : State} (x : Transaction) (h : hostIssue cw s = .next t) :
    Performs s x t := by
  unfold hostIssue at h
  split at h
  · cases h; exact .ignored x
  · next hf =>
    split at h
    · cases h; exact .reserved x (by simpa using hf)
    · exact .executed (executes_of_exec h)

/-- R19 to R22: a write to a port register other than CMD is ignored. -/
theorem hostWriteReg_of_ne_zero {n : Nat} (hn : n ≠ 0) (v : Word32) (s : State) : hostWriteReg n v s = .next s :=
  if_neg hn

theorem performs_of_perform {x : Transaction} {s t : State} (h : perform x s = .next t) : Performs s x t := by
  cases x with
  | put m =>
    simp only [perform, hostPutInput] at h
    split at h
    · next hm => cases h; exact .put m hm
    · cases h
  | issue cw => exact performs_of_hostIssue _ h
  | getOutput =>
    simp only [perform, hostGetOutput] at h
    split at h
    · next bs _ => cases h; exact .answered _ _
    · cases h
  | readReg n => cases h; exact .answered _ _
  | writeReg n v =>
    by_cases hn : n = 0
    · subst hn; exact performs_of_hostIssue _ h
    · cases (hostWriteReg_of_ne_zero hn v s).symm.trans h; exact .ignored _
  | reset => cases h; exact .reset _ _

/-- R30, R29: the reset state is sound. -/
theorem inv_resetWith {cap : Nat} (hc : Config.AdmissibleCap cap) (draws : Nat) (left : Config.Contents) :
    (State.resetWith cap draws left).Inv where
  cap_admissible := hc
  ilen_le_cap := Nat.zero_le cap
  olen_le_cap := Nat.zero_le cap
  ibuf_holds := Memory.holds_nil
  obuf_holds := Memory.holds_nil
  err_is_code := by simp
  rkv_schedule hr := by cases hr
  fatal_no_key _ := rfl
  fatal_iff_config := by simp

namespace Performs

variable {x : Transaction} {s t : State}

/-- R29: every transaction keeps the invariant of sound states. -/
theorem inv (h : Performs s x t) (hs : s.Inv) : t.Inv := by
  cases h with
  | put m hm => rw [Memory.below_writeBytes_zero hs.ibuf_holds.wf]; exact inv_putInput hs hm
  | executed h => exact h.inv hs
  | reserved _ hf => exact inv_raise hs hf nofun
  | answered _ r => exact inv_host hs s.host r
  | ignored => exact hs
  | reset draws left => exact inv_host (inv_resetWith hs.cap_admissible draws left) s.host .none

/-- R14: with a key loaded KEY and KV change by HostReset only. -/
theorem key_kv_eq (h : Performs s x t) (hk : s.kv = true) (hx : x ≠ .reset) : t.key = s.key ∧ t.kv = s.kv := by
  cases h with
  | executed h =>
    by_contra hne
    simp [(h.of_key_kv_ne (not_and_or.1 hne)).2.1] at hk
  | reset => exact absurd rfl hx
  | put | reserved | answered | ignored => exact ⟨rfl, rfl⟩

/-- R15: RKV is cleared by HostReset only. -/
theorem rkv_eq_true (h : Performs s x t) (hr : s.rkv = true) (hx : x ≠ .reset) : t.rkv = true := by
  cases h with
  | executed h =>
    by_cases hne : t.rkv = s.rkv
    · exact hne.trans hr
    · exact (h.of_w_rkv_ne (.inr hne)).2.2.1
  | reset => exact absurd rfl hx
  | put | reserved | answered | ignored => exact hr

end Performs

/-- R6: a step performs HOST's next transaction, so what every transaction keeps every step keeps. -/
theorem step_inv {s t : State} (hs : s.Inv) (h : step s = .next t) : t.Inv := by
  unfold step hostStep at h
  split at h
  · cases h; exact hs
  · next x rest _ => exact (performs_of_perform h).inv (inv_host hs rest .none)

/-! ## Several instances -/

/-- Everything a step of one of several instances can do when it answers a next state (R31). -/
theorem stepInstance_cases {k : Nat} {xs ys : List State} (h : stepInstance k xs = .next ys) :
    (xs[k]? = none ∧ ys = xs) ∨ ∃ s t, xs[k]? = some s ∧ step s = .next t ∧ ys = xs.set k t := by
  unfold stepInstance at h
  split at h
  · next hk => cases h; exact .inl ⟨hk, rfl⟩
  · next s hk =>
    split at h
    · next t ht => cases h; exact .inr ⟨s, t, hk, ht, rfl⟩
    · cases h
    · cases h

/-! ## The obligations of spec/10_state.md -/

/-- Settles O58: a step performs one transaction, and each way a transaction can end keeps the invariant. -/
theorem everyStepKeepsTheInvariant : Obligations.EveryStepKeepsTheInvariant :=
  fun _ _ => step_inv

/-- Settles O15: the list is changed at index `k` only. -/
theorem instancesDoNotInteract : Obligations.InstancesDoNotInteract := by
  intro k xs ys h
  rcases stepInstance_cases h with ⟨hk, rfl⟩ | ⟨s, t, hk, ht, rfl⟩
  · exact ⟨rfl, fun _ _ => rfl, fun s hs => by simp [hk] at hs⟩
  · refine ⟨List.length_set, fun j hj => List.getElem?_set_ne hj.symm, fun s' hs' => ⟨t, ?_, ?_⟩⟩
    · cases hk.symm.trans hs'; exact ht
    · exact List.getElem?_set_self (List.getElem?_eq_some_iff.1 hk).1

/-- Settles O50: LDKEY is the only command that writes KEY and KV, and it refuses where KV = 1. -/
theorem keyIsWrittenOnceByLdkey : Obligations.KeyIsWrittenOnceByLdkey := by
  refine ⟨fun i s t h hne => (executes_of_exec h).of_key_kv_ne hne, fun x s t h hk hx => ?_⟩
  obtain ⟨hkey, hkv⟩ := (performs_of_perform h).key_kv_eq hk hx
  exact ⟨hkey, hkv.trans hk⟩

/-- Settles O52: KEXP, ECBE and ECBD are the only commands that write W and RKV, and they set RKV. -/
theorem scheduleIsWrittenOnlyByTheKeyExpansion : Obligations.ScheduleIsWrittenOnlyByTheKeyExpansion :=
  ⟨fun _ _ _ h hne => (executes_of_exec h).of_w_rkv_ne hne,
    fun _ _ _ h hr hx => (performs_of_perform h).rkv_eq_true hr hx⟩

/-- Settles O53, by the ways in which a command can end. -/
theorem stateValidBitRule : Obligations.StateValidBitRule := by
  intro i s t h
  have hx := executes_of_exec h
  exact ⟨hx.of_sv_set, hx.of_sv_cleared, hx.sv_eq_false⟩

/-- Settles O54: such a command raises, or it delivers a result and writes nothing else. -/
theorem frameOfOutputCommands : Obligations.FrameOfOutputCommands := by
  intro i s t hi hs h
  have hx := executes_of_exec h
  rcases hx.of_writesOutputOnly hs.not_fatal hi with ⟨e, he, rfl⟩ | ⟨hd, hn⟩
  · exact ⟨sameRegisters_raise he s, hx.sameInput.1, fun _ => ⟨rfl, fun _ => rfl⟩,
      fun h0 => absurd h0 e.code_ne_zero, fun _ => rfl⟩
  · exact ⟨hd.sameRegisters, hx.sameInput.1, fun h0 => absurd hd.err_eq h0,
      fun _ _ => hd.read1_obuf_eq_none hs.inv.cap_admissible, hn⟩

/-- Settles O55, register by register. -/
theorem frameOfRegisterCommands : Obligations.FrameOfRegisterCommands := by
  intro i s t hi h
  have hx := executes_of_exec h
  obtain ⟨hin, hcap⟩ := hx.sameInput
  obtain ⟨hout, hdraws⟩ := hx.sameOutput_of_writesRegistersOnly hi
  obtain ⟨-, hds⟩ : writesOutputOnly i = false ∧ discardsState i = false := by simpa [writesRegistersOnly_eq] using hi
  refine ⟨hin, hout, hcap, hdraws, fun hl => ?_, fun hk => hx.w_rkv_eq ?_, hx.smat_eq hi, hx.sv_eq hds⟩
  · obtain ⟨hkey, hkv⟩ := hx.key_kv_eq hl
    exact ⟨hkey, hkv, hx.fatal_eq hl⟩
  · simp only [List.mem_cons, List.not_mem_nil, or_false, not_or]
    exact ⟨hk, fun he => by simp [he, discardsState] at hds, fun he => by simp [he, discardsState] at hds⟩

/-- Settles O56: such a command raises, or it delivers a result with S discarded, ECBE and ECBD after the key
expansion. -/
theorem frameOfBlockCommands : Obligations.FrameOfBlockCommands := by
  intro i s t hi hs h
  have hx := executes_of_exec h
  have hl : i ≠ .ldkey := by rintro rfl; cases hi
  obtain ⟨hkey, hkv⟩ := hx.key_kv_eq hl
  obtain ⟨hin, hcap⟩ := hx.sameInput
  refine ⟨hkey, hkv, hx.fatal_eq hl, hcap, hin, fun hb => hx.w_rkv_eq ?_, ?_⟩
  · rcases hb with rfl | rfl <;> simp
  · rcases hx.of_discardsState hs.not_fatal hi with ⟨e, he, rfl⟩ | hd | ⟨_, hd⟩
    · exact ⟨fun _ => ⟨sameRegisters_raise he s, ⟨rfl, fun _ => rfl⟩, rfl⟩, fun h0 => absurd h0 e.code_ne_zero⟩
    · exact ⟨fun h0 => absurd hd.err_eq h0, fun _ _ => hd.read1_obuf_eq_none hs.inv.cap_admissible⟩
    · exact ⟨fun h0 => absurd hd.err_eq h0, fun _ _ => hd.read1_obuf_eq_none hs.inv.cap_admissible⟩

/-- Settles O13: register 0 is the only one whose write does anything. -/
theorem writeToOtherRegistersIsIgnored : Obligations.WriteToOtherRegistersIsIgnored :=
  fun s _ v hn => hostWriteReg_of_ne_zero hn v s

/-- Settles O60: every field of the invariant is plain in the reset state. -/
theorem resetStateIsSound : Obligations.ResetStateIsSound :=
  ⟨fun _ draws left hc => inv_resetWith hc draws left, inv_resetWith (by decide) 0 Config.powerOn⟩

end Sys2Proof.Machine

/-! SUPPORT. The rules of spec/20_memory.md: what each transaction of HOST answers, one equation for each way it can go,
the bytes it moves and the fields of STATUS, and the statements about the port that are read off those equations. -/

namespace Sys2Proof.Machine

/-! ## A step is HOST's next transaction (R6, R55) -/

theorem step_of_host_nil {s : State} (h : s.host = []) : step s = .next s := by
  simp only [step, hostStep, h]

theorem step_of_host_cons {s : State} {x : Transaction} {rest : List Transaction} (h : s.host = x :: rest) :
    step s = perform x (s.taken rest) := by
  simp only [step, hostStep, h]

/-- R170: with FATAL = 0 a command word that decodes is executed. -/
theorem hostIssue_of_decode {s : State} {cw : Word32} {i : Instr} (hf : s.fatal = false) (hd : decode cw = .ok i) :
    hostIssue cw s = exec i s := by
  simp [hostIssue, hf, hd]

/-- R22: a write to CMD is HostIssue. -/
theorem hostWriteReg_zero (cw : Word32) (s : State) : hostWriteReg 0 cw s = hostIssue cw s := rfl

/-! ## HostPutInput (R48) -/

/-- A message of at most CAP bytes is all that IBUF holds afterwards. -/
theorem hostPutInput_of_le {s : State} {m : List Byte} (hw : Memory.wf s.ibuf) (hm : m.length ≤ s.cap) :
    hostPutInput m s = .next { s with ibuf := Memory.ofBytes m, ilen := BitVec.ofNat 32 m.length } := by
  rw [hostPutInput, if_pos hm, Memory.below_writeBytes_zero hw]

theorem hostPutInput_of_lt {s : State} {m : List Byte} (hm : s.cap < m.length) :
    hostPutInput m s = .refused (.messageTooLong m.length) :=
  if_neg (Nat.not_le.2 hm)

/-! ## HostGetOutput (R50) -/

theorem hostGetOutput_of_memRead {s : State} {bs : List Byte} (h : memRead s .obuf 0 s.olen.toNat = some bs) :
    hostGetOutput s = .next { s with reply := .bytes bs } := by
  simp only [hostGetOutput, h]

/-- R46: reading the valid part of OBUF is reading its bytes in order. -/
theorem memRead_obuf_whole (s : State) :
    memRead s .obuf 0 s.olen.toNat = readSeq (Memory.read1 s.obuf) 0 s.olen.toNat :=
  if_pos (Nat.zero_add _).le

/-! ## HostReadReg (R51, R19) -/

/-- R22: the registers above OLEN do not exist and read zero. -/
theorem portRegister_of_four_le {s : State} {n : Nat} (hn : 4 ≤ n) : portRegister s n = 0 := by
  match n, hn with
  | _ + 4, _ => rfl

section Status

variable (s : State)

/-- R19: the four flags stand below ERR, KV lowest. -/
theorem statusWord_eq_concat :
    statusWord s = ((((0#24 ++ s.err).concat s.fatal).concat s.sv).concat s.rkv).concat s.kv := rfl

theorem statusWord_kv : (statusWord s).getLsbD 0 = s.kv := by
  simp only [statusWord_eq_concat, BitVec.getLsbD_concat_zero]

theorem statusWord_rkv : (statusWord s).getLsbD 1 = s.rkv := by
  simp only [statusWord_eq_concat, BitVec.getLsbD_concat_succ, BitVec.getLsbD_concat_zero]

theorem statusWord_sv : (statusWord s).getLsbD 2 = s.sv := by
  simp only [statusWord_eq_concat, BitVec.getLsbD_concat_succ, BitVec.getLsbD_concat_zero]

theorem statusWord_fatal : (statusWord s).getLsbD 3 = s.fatal := by
  simp only [statusWord_eq_concat, BitVec.getLsbD_concat_succ, BitVec.getLsbD_concat_zero]

/-- R19: above the flags stands ERR, and above ERR zero. -/
theorem statusWord_getLsbD_add_four (k : Nat) : (statusWord s).getLsbD (k + 4) = s.err.getLsbD k := by
  simp only [statusWord_eq_concat, BitVec.getLsbD_concat_succ, BitVec.getLsbD_append]
  simpa using BitVec.lt_of_getLsbD

theorem statusWord_err : (statusWord s).extractLsb' 4 4 = s.err := by
  refine BitVec.eq_of_getLsbD_eq fun k hk => ?_
  rw [BitVec.getLsbD_extractLsb', Nat.add_comm 4 k, statusWord_getLsbD_add_four]
  simp [hk]

theorem statusWord_reserved : (statusWord s).extractLsb' 8 24 = 0 := by
  refine BitVec.eq_of_getLsbD_eq fun k hk => ?_
  rw [BitVec.getLsbD_extractLsb', show 8 + k = (k + 4) + 4 by omega, statusWord_getLsbD_add_four]
  simp

end Status

/-! ## The obligations of spec/20_memory.md -/

/-- Settles O10: the new IBUF is the buffer made of the message, and a length up to CAP fits ILEN. -/
theorem putInputWritesTheMessage : Obligations.PutInputWritesTheMessage := by
  refine ⟨fun s m hs hm => ?_, fun s m hm => hostPutInput_of_lt hm⟩
  have hlen : (BitVec.ofNat 32 m.length).toNat = m.length := toNat_length hs.cap_admissible hm
  exact ⟨_, hostPutInput_of_le hs.ibuf_holds.wf hm, rfl, hlen, input_ofBytes rfl hlen, Memory.read1_ofBytes m⟩

/-- Settles O11: in a sound state every valid byte of OBUF holds a value, so the read answers, byte for byte. -/
theorem getOutputReturnsTheValidBytes : Obligations.GetOutputReturnsTheValidBytes := by
  intro s hs
  obtain ⟨bs, hbs⟩ := memRead_obuf hs
  have hseq : readSeq (Memory.read1 s.obuf) 0 s.olen.toNat = some bs := (memRead_obuf_whole s).symm.trans hbs
  refine ⟨bs, hostGetOutput_of_memRead hbs, readSeq_length hseq, fun k hk => ?_⟩
  simpa using readSeq_getElem hseq hk

/-- Settles O8: HostIssue and a write to CMD are the same transaction, and it executes the decoded command. -/
theorem stepRunsTheDecodedCommand : Obligations.StepRunsTheDecodedCommand := by
  refine ⟨fun s cw rest i hh hf hd => ?_, fun s => step_of_host_nil⟩
  have hexec : hostIssue cw (s.taken rest) = exec i (s.taken rest) := hostIssue_of_decode hf hd
  rcases hh with hissue | hwrite
  · exact (step_of_host_cons hissue).trans hexec
  · exact (step_of_host_cons hwrite).trans ((hostWriteReg_zero cw _).trans hexec)

/-- Settles O12: the fixed registers are read off, those above read zero, and STATUS has its fields at their bits. -/
theorem readRegReturnsThePortRegister : Obligations.ReadRegReturnsThePortRegister := by
  refine fun s => ⟨rfl, rfl, rfl, fun n hn => ?_, statusWord s, rfl, statusWord_kv s, statusWord_rkv s, statusWord_sv s,
    statusWord_fatal s, statusWord_err s, statusWord_reserved s⟩
  rw [hostReadReg, portRegister_of_four_le hn]

end Sys2Proof.Machine

/-! SUPPORT. The rules of spec/30_encoding.md: the opcode map as data, one entry for each opcode with the format of its
words, tied once to the decoder and once to the opcode table, and the statements that are read off it. -/

namespace Sys2Proof

/-! ## The four formats (R61 to R64) -/

/-- R61 to R64: the format of an opcode's words, with the command that its operands make. -/
inductive CommandFormat where
  /-- R61: no operand. -/
  | formatN (i : Instr)
  /-- R62: one byte. -/
  | formatA (mk : Byte → Instr)
  /-- R63: two bytes. -/
  | formatB (mk : Byte → Byte → Instr)
  /-- R64: one index in 0..`top`. -/
  | formatI (top : Nat) (mk : BitVec 4 → Instr)

namespace CommandFormat

/-- R66 (2), (3): the word's zero field is zero and its index, if it has one, is in range. -/
def Admits : CommandFormat → Word32 → Prop
  | formatN _, cw => zeroN cw = 0
  | formatA _, cw => zeroA cw = 0
  | formatB _, cw => zeroB cw = 0
  | formatI top _, cw => zeroI cw = 0 ∧ (idxField cw).toNat ≤ top

/-- R66 (4): the command with the word's operands. -/
def command : CommandFormat → Word32 → Instr
  | formatN i, _ => i
  | formatA mk, cw => mk (lowByte cw)
  | formatB mk, cw => mk (secondByte cw) (lowByte cw)
  | formatI _ mk, cw => mk (idxField cw)

/-- R66: the model's decoder of the format. -/
def decode : CommandFormat → Word32 → Except Reject Instr
  | formatN i, cw => decodeN cw i
  | formatA mk, cw => decodeA cw mk
  | formatB mk, cw => decodeB cw mk
  | formatI top mk, cw => decodeI cw top mk

/-- The word of opcode `op` that the model's encoder of the format makes of the operands of `cw`. -/
def word (op : Byte) : CommandFormat → Word32 → Word32
  | formatN _, _ => encodeN op
  | formatA _, cw => encodeA op (lowByte cw)
  | formatB _, cw => encodeB op (secondByte cw) (lowByte cw)
  | formatI _ _, cw => encodeI op (idxField cw)

/-- R67: the row of the opcode table for opcode `op`: the mask covers the opcode and the format's zero field. -/
def row (op : Byte) : CommandFormat → OpcodeRow
  | formatN i => ⟨i.mnemonic, encodeN op, 0xFFFFFFFF, none⟩
  | formatA mk => ⟨(mk 0).mnemonic, encodeA op 0, 0xFFFFFF00, none⟩
  | formatB mk => ⟨(mk 0 0).mnemonic, encodeB op 0 0, 0xFFFF0000, none⟩
  | formatI top mk => ⟨(mk 0).mnemonic, encodeI op 0, 0xFFFFFFF0, some top⟩

/-- R66 (2) to (4): a format accepts exactly the words it admits. -/
theorem decode_eq_ok_iff {f : CommandFormat} {cw : Word32} {i : Instr} :
    f.decode cw = .ok i ↔ f.Admits cw ∧ i = f.command cw := by
  constructor
  · intro h
    cases f with
    | formatN j => exact decodeN_ok h
    | formatA mk => exact decodeA_ok h
    | formatB mk => exact decodeB_ok h
    | formatI top mk => exact and_assoc.2 (decodeI_ok h)
  · rintro ⟨h, rfl⟩
    cases f with
    | formatN j => exact if_pos h
    | formatA mk => exact if_pos h
    | formatB mk => exact if_pos h
    | formatI top mk => exact (if_pos h.1).trans (if_pos h.2)

/-- R60 to R65: with its zero field zero, a word is made of its opcode and operands. -/
theorem word_opField {f : CommandFormat} {cw : Word32} (h : f.Admits cw) : f.word (opField cw) cw = cw := by
  cases f with
  | formatN i => rw [word, encodeN, ← show zeroN cw = 0 from h, word_of_fieldsN]
  | formatA mk => rw [word, encodeA, ← show zeroA cw = 0 from h, word_of_fieldsA]
  | formatB mk => rw [word, encodeB, ← show zeroB cw = 0 from h, word_of_fieldsB]
  | formatI top mk => rw [word, encodeI, ← h.1, word_of_fieldsI]

end CommandFormat

/-! ## The masks of the opcode table (R67) -/

section Masks

variable (cw : Word32)

theorem and_maskN : cw &&& 0xFFFFFFFF = opField cw ++ zeroN cw :=
  (BitVec.and_allOnes (x := cw)).trans (word_of_fieldsN cw).symm

theorem and_maskA : cw &&& 0xFFFFFF00 = opField cw ++ zeroA cw ++ 0#8 := by
  calc cw &&& 0xFFFFFF00
      = opField cw ++ zeroA cw ++ lowByte cw &&& BitVec.allOnes 8 ++ BitVec.allOnes 16 ++ 0#8 :=
        congrArg (· &&& _) (word_of_fieldsA cw).symm
    _ = _ := by simp only [BitVec.and_append, BitVec.and_allOnes, BitVec.and_zero]

theorem and_maskB : cw &&& 0xFFFF0000 = opField cw ++ zeroB cw ++ 0#8 ++ 0#8 := by
  calc cw &&& 0xFFFF0000
      = opField cw ++ zeroB cw ++ secondByte cw ++ lowByte cw &&&
          BitVec.allOnes 8 ++ BitVec.allOnes 8 ++ 0#8 ++ 0#8 := congrArg (· &&& _) (word_of_fieldsB cw).symm
    _ = _ := by simp only [BitVec.and_append, BitVec.and_allOnes, BitVec.and_zero]

theorem and_maskI : cw &&& 0xFFFFFFF0 = opField cw ++ zeroI cw ++ 0#4 := by
  calc cw &&& 0xFFFFFFF0
      = opField cw ++ zeroI cw ++ idxField cw &&& BitVec.allOnes 8 ++ BitVec.allOnes 20 ++ 0#4 :=
        congrArg (· &&& _) (word_of_fieldsI cw).symm
    _ = _ := by simp only [BitVec.and_append, BitVec.and_allOnes, BitVec.and_zero]

end Masks

theorem append_eq_append_iff {m n : Nat} {x x' : BitVec m} {y y' : BitVec n} :
    x ++ y = x' ++ y' ↔ x = x' ∧ y = y' := by
  constructor
  · intro h
    have hx := congrArg (BitVec.extractLsb' n m) h
    have hy := congrArg (BitVec.extractLsb' 0 n) h
    rw [BitVec.extractLsb'_append_eq_left, BitVec.extractLsb'_append_eq_left] at hx
    rw [BitVec.extractLsb'_append_eq_right, BitVec.extractLsb'_append_eq_right] at hy
    exact ⟨hx, hy⟩
  · rintro ⟨rfl, rfl⟩; rfl

/-- R67: a row's match and mask compare the opcode and the zero field, and its range bounds the index. -/
theorem CommandFormat.selects_row_iff {op : Byte} {f : CommandFormat} {cw : Word32} :
    (f.row op).selects cw = true ↔ opField cw = op ∧ f.Admits cw := by
  cases f with
  | formatN i =>
    simp only [row, OpcodeRow.selects, Bool.and_true, beq_iff_eq, and_maskN]
    exact append_eq_append_iff
  | formatA mk =>
    simp only [row, OpcodeRow.selects, Bool.and_true, beq_iff_eq, and_maskA]
    exact (BitVec.append_left_inj _).trans append_eq_append_iff
  | formatB mk =>
    simp only [row, OpcodeRow.selects, Bool.and_true, beq_iff_eq, and_maskB]
    exact (BitVec.append_left_inj _).trans ((BitVec.append_left_inj _).trans append_eq_append_iff)
  | formatI top mk =>
    simp only [row, OpcodeRow.selects, Bool.and_eq_true, beq_iff_eq, decide_eq_true_iff, and_maskI, Admits, ← and_assoc]
    exact and_congr_left' ((BitVec.append_left_inj _).trans append_eq_append_iff)

/-! ## The opcode map (R67) -/

/-- R67: the 24 opcodes, each with its format and its command. -/
def opcodeMap : List (Byte × CommandFormat) :=
  [ (0x00, .formatN .nop), (0x10, .formatA .gfdbl), (0x11, .formatB .gfmul), (0x20, .formatA .sbox),
    (0x21, .formatA .isbox), (0x22, .formatI maxRcon .rcon), (0x30, .formatN .ldkey), (0x31, .formatN .kexp),
    (0x32, .formatI maxRound .rdrk), (0x40, .formatN .ldst), (0x41, .formatN .stst), (0x42, .formatI maxRound .ark),
    (0x43, .formatN .subb), (0x44, .formatN .isubb), (0x45, .formatN .shrow), (0x46, .formatN .ishrow),
    (0x47, .formatN .mixc), (0x48, .formatN .imixc), (0x50, .formatN .encb), (0x51, .formatN .decb),
    (0x60, .formatN .pad), (0x61, .formatN .unpad), (0x62, .formatN .ecbe), (0x63, .formatN .ecbd) ]

theorem opcodeTable_eq_map : opcodeTable = opcodeMap.map fun e => e.2.row e.1 := rfl

theorem mappedOpcodes_eq_map : mappedOpcodes = opcodeMap.map Prod.fst := rfl

/-- R66 (1): a word whose opcode has an entry is decoded by the entry's format. -/
theorem decode_of_mem : ∀ e ∈ opcodeMap, ∀ {cw : Word32}, opField cw = e.1 → decode cw = e.2.decode cw := by
  simp only [opcodeMap, List.forall_mem_cons]
  exact ⟨decode_op_nop, decode_op_gfdbl, decode_op_gfmul, decode_op_sbox, decode_op_isbox, decode_op_rcon,
    decode_op_ldkey, decode_op_kexp, decode_op_rdrk, decode_op_ldst, decode_op_stst, decode_op_ark, decode_op_subb,
    decode_op_isubb, decode_op_shrow, decode_op_ishrow, decode_op_mixc, decode_op_imixc, decode_op_encb, decode_op_decb,
    decode_op_pad, decode_op_unpad, decode_op_ecbe, decode_op_ecbd, fun _ he => nomatch he⟩

/-- The commands of an entry are well formed, encoded in the entry's format and named as its row is. -/
theorem command_of_mem : ∀ e ∈ opcodeMap, ∀ cw, e.2.Admits cw →
    (e.2.command cw).wellFormed = true ∧ encode (e.2.command cw) = e.2.word e.1 cw ∧
      (e.2.command cw).mnemonic = (e.2.row e.1).mnemonic := by
  simp [opcodeMap, CommandFormat.Admits, CommandFormat.command, CommandFormat.word, CommandFormat.row,
    Instr.wellFormed, encode, Instr.opcode, Instr.mnemonic]

/-- R66: what decodes, and to what. -/
theorem decode_eq_ok_iff {cw : Word32} {i : Instr} :
    decode cw = .ok i ↔ ∃ f, (opField cw, f) ∈ opcodeMap ∧ f.Admits cw ∧ i = f.command cw := by
  constructor
  · intro h
    by_cases hop : opField cw ∈ mappedOpcodes
    · obtain ⟨⟨op, f⟩, he, rfl⟩ := List.mem_map.1 (mappedOpcodes_eq_map ▸ hop)
      exact ⟨f, he, CommandFormat.decode_eq_ok_iff.1 ((decode_of_mem _ he rfl).symm.trans h)⟩
    · exact nomatch (decode_reserved hop).symm.trans h
  · rintro ⟨f, he, h⟩
    exact (decode_of_mem _ he rfl).trans (CommandFormat.decode_eq_ok_iff.2 h)

/-! ## The opcodes of each format (R67) -/

theorem exists_formatN : ∀ op ∈ ([0x00, 0x30, 0x31, 0x40, 0x41, 0x43, 0x44, 0x45, 0x46, 0x47, 0x48, 0x50, 0x51, 0x60,
    0x61, 0x62, 0x63] : List Byte), ∃ i, (op, .formatN i) ∈ opcodeMap := by
  simp [opcodeMap]

theorem exists_formatA : ∀ op ∈ ([0x10, 0x20, 0x21] : List Byte), ∃ mk, (op, .formatA mk) ∈ opcodeMap := by
  simp [opcodeMap]

theorem exists_formatI : ∀ op ∈ ([0x22, 0x32, 0x42] : List Byte), ∃ top mk, (op, .formatI top mk) ∈ opcodeMap := by
  simp [opcodeMap]

/-! ## The decoder and the rows of the opcode table (R67, R75) -/

/-- The table has a row for every command that a word decodes to. -/
theorem exists_row_of_decode {cw : Word32} {i : Instr} (h : decode cw = .ok i) :
    ∃ row ∈ opcodeTable, row.selects cw = true ∧ i.mnemonic = row.mnemonic := by
  obtain ⟨f, he, ha, rfl⟩ := decode_eq_ok_iff.1 h
  obtain ⟨-, -, hname⟩ := command_of_mem _ he cw ha
  exact ⟨_, opcodeTable_eq_map ▸ List.mem_map_of_mem he, CommandFormat.selects_row_iff.2 ⟨rfl, ha⟩, hname⟩

/-- R67: no two rows have one mnemonic. -/
theorem mnemonics_nodup : (opcodeTable.map OpcodeRow.mnemonic).Nodup := by decide

/-- R75: a row selects exactly the words that decode to its command. -/
theorem selects_iff_decode {row : OpcodeRow} (hrow : row ∈ opcodeTable) {cw : Word32} :
    row.selects cw = true ↔ ∃ i, decode cw = .ok i ∧ i.mnemonic = row.mnemonic := by
  constructor
  · intro hs
    obtain ⟨⟨op, f⟩, he, rfl⟩ := List.mem_map.1 (opcodeTable_eq_map ▸ hrow)
    obtain ⟨rfl, ha⟩ := CommandFormat.selects_row_iff.1 hs
    obtain ⟨-, -, hname⟩ := command_of_mem _ he cw ha
    exact ⟨_, decode_eq_ok_iff.2 ⟨f, he, ha, rfl⟩, hname⟩
  · rintro ⟨i, hd, hname⟩
    obtain ⟨row', hrow', hs, hname'⟩ := exists_row_of_decode hd
    rwa [List.inj_on_of_nodup_map mnemonics_nodup hrow hrow' (hname.symm.trans hname')]

/-- R75: no two rows have one opcode. -/
theorem opcodes_nodup : (opcodeTable.map (opField ·.pattern)).Nodup := by decide

/-- R75: every mask covers the whole opcode field. -/
theorem opField_mask : ∀ row ∈ opcodeTable, opField row.mask = 0xFF := by decide

/-- R67: a word that a row's match and mask accept has the row's opcode. -/
theorem opField_of_accepts {row : OpcodeRow} (hrow : row ∈ opcodeTable) {cw : Word32}
    (h : cw &&& row.mask = row.pattern) : opField cw = opField row.pattern :=
  calc opField cw = opField cw &&& 0xFF := BitVec.and_allOnes.symm
    _ = opField cw &&& opField row.mask := by rw [opField_mask row hrow]
    _ = opField (cw &&& row.mask) := BitVec.extractLsb'_and.symm
    _ = opField row.pattern := by rw [h]

/-! ## The word of a command decodes to it -/

section RoundTrip

variable {op : Byte}

theorem decode_encodeN {i : Instr} (h : (op, .formatN i) ∈ opcodeMap) : decode (encodeN op) = .ok i :=
  (decode_of_mem _ h (opField_formatN op 0)).trans (CommandFormat.decode_eq_ok_iff.2 ⟨zeroN_formatN op 0, rfl⟩)

theorem decode_encodeA {mk : Byte → Instr} (h : (op, .formatA mk) ∈ opcodeMap) (a : Byte) :
    decode (encodeA op a) = .ok (mk a) :=
  (decode_of_mem _ h (opField_formatA op a 0)).trans
    (CommandFormat.decode_eq_ok_iff.2 ⟨zeroA_formatA op a 0, congrArg mk (lowByte_formatA op a 0).symm⟩)

theorem decode_encodeB {mk : Byte → Byte → Instr} (h : (op, .formatB mk) ∈ opcodeMap) (a b : Byte) :
    decode (encodeB op a b) = .ok (mk a b) :=
  (decode_of_mem _ h (opField_formatB op a b 0)).trans
    (CommandFormat.decode_eq_ok_iff.2 ⟨zeroB_formatB op a b 0,
      congrArg₂ mk (secondByte_formatB op a b 0).symm (lowByte_formatB op a b 0).symm⟩)

theorem decode_encodeI {top : Nat} {mk : BitVec 4 → Instr} (h : (op, .formatI top mk) ∈ opcodeMap) {idx : BitVec 4}
    (hi : idx.toNat ≤ top) : decode (encodeI op idx) = .ok (mk idx) :=
  (decode_of_mem _ h (opField_formatI op 0 idx)).trans
    (CommandFormat.decode_eq_ok_iff.2 ⟨⟨zeroI_formatI op 0 idx, (idxField_formatI op 0 idx).symm ▸ hi⟩,
      congrArg mk (idxField_formatI op 0 idx).symm⟩)

end RoundTrip

/-- R60 to R67: the word of a well-formed command decodes to it. -/
theorem decode_encode {i : Instr} (h : i.wellFormed = true) : decode (encode i) = .ok i := by
  cases i with
  | gfdbl a | sbox a | isbox a => exact decode_encodeA (by simp [opcodeMap, Instr.opcode]) a
  | gfmul a b => exact decode_encodeB (by simp [opcodeMap, Instr.opcode]) a b
  | rcon idx | rdrk idx | ark idx =>
    have hrange := of_decide_eq_true h
    exact decode_encodeI (by simp [opcodeMap, Instr.opcode]) hrange
  | nop | ldkey | kexp | ldst | stst | subb | isubb | shrow | ishrow | mixc | imixc | encb | decb | pad | unpad | ecbe
  | ecbd => exact decode_encodeN (by simp [opcodeMap, Instr.opcode])

end Sys2Proof

namespace Sys2Proof.Machine

/-- R66, R175: with FATAL = 0 a word that does not decode raises IllegalCommand. -/
theorem hostIssue_of_decode_ne_ok {s : State} {cw : Word32} (hf : s.fatal = false) (hd : ∀ i, decode cw ≠ .ok i) :
    hostIssue cw s = .next { s with err := 3 } := by
  cases h : decode cw with
  | ok i => exact absurd h (hd i)
  | error e => simp [hostIssue, hf, h, raise, CommandError.code, CommandError.isFatal]

/-- R69, R70: with FATAL = 0 so does a word that its opcode's format does not admit. -/
theorem hostIssue_of_not_admits {s : State} {cw : Word32} (hf : s.fatal = false) (f : CommandFormat)
    (he : (opField cw, f) ∈ opcodeMap) (ha : ¬ f.Admits cw) : hostIssue cw s = .next { s with err := 3 } := by
  refine hostIssue_of_decode_ne_ok hf fun i h => ha ?_
  exact (CommandFormat.decode_eq_ok_iff.1 ((decode_of_mem _ he rfl).symm.trans h)).1

/-! ## The obligations of spec/30_encoding.md -/

/-- Settles O1: each command's word has its opcode's entry in the map, a zero field of zero and the operands put in. -/
theorem everyWellFormedCommandDecodesFromItsWord : Obligations.EveryWellFormedCommandDecodesFromItsWord :=
  fun _ => decode_encode

/-- Settles O2: the map's entry gives the command, and the word is made of its opcode and operands. -/
theorem decodedWordIsTheWordOfItsCommand : Obligations.DecodedWordIsTheWordOfItsCommand := by
  intro cw i h
  obtain ⟨f, he, ha, rfl⟩ := decode_eq_ok_iff.1 h
  obtain ⟨hwf, henc, -⟩ := command_of_mem _ he cw ha
  exact ⟨hwf, henc.trans (CommandFormat.word_opField ha)⟩

/-- Settles O3: a row selects what its entry's format admits, so the error cases are the words that no row selects; and
every mask covers the opcode, which no two rows share. -/
theorem decoderIsTheOpcodeTable : Obligations.DecoderIsTheOpcodeTable := by
  refine ⟨fun cw => ⟨fun row hrow => selects_iff_decode hrow, ?_⟩, fun cw r₁ r₂ h₁ h₂ hm₁ hm₂ => ?_⟩
  · constructor
    · intro h
      cases hd : decode cw with
      | error e => exact ⟨e, rfl⟩
      | ok i =>
        obtain ⟨row, hrow, hs, -⟩ := exists_row_of_decode hd
        exact absurd hs (Bool.eq_false_iff.1 (h row hrow))
    · rintro ⟨e, he⟩ row hrow
      refine Bool.eq_false_iff.2 fun hs => ?_
      obtain ⟨i, hi, -⟩ := (selects_iff_decode hrow).1 hs
      exact nomatch he.symm.trans hi
  · have hop : opField r₁.pattern = opField r₂.pattern :=
      (opField_of_accepts h₁ hm₁).symm.trans (opField_of_accepts h₂ hm₂)
    exact List.inj_on_of_nodup_map opcodes_nodup h₁ h₂ hop

/-- Settles O4: a word whose opcode is outside the map does not decode. -/
theorem reservedOpcodeRaisesIllegalCommand : Obligations.ReservedOpcodeRaisesIllegalCommand :=
  fun _ _ hf hop => hostIssue_of_decode_ne_ok hf fun _ h => nomatch (decode_reserved hop).symm.trans h

/-- Settles O5: the entry of each listed opcode has the format whose zero field is named. -/
theorem nonZeroZeroFieldRaisesIllegalCommand : Obligations.NonZeroZeroFieldRaisesIllegalCommand := by
  rintro s cw hf (⟨hop, hz⟩ | ⟨hop, hz⟩ | ⟨hop, hz⟩ | ⟨hop, hz⟩)
  · obtain ⟨i, he⟩ := exists_formatN _ hop
    exact hostIssue_of_not_admits hf _ he hz
  · obtain ⟨mk, he⟩ := exists_formatA _ hop
    exact hostIssue_of_not_admits hf _ he hz
  · exact hostIssue_of_not_admits hf (.formatB .gfmul) (by simp [opcodeMap, hop]) hz
  · obtain ⟨top, mk, he⟩ := exists_formatI _ hop
    exact hostIssue_of_not_admits hf _ he fun h => hz h.1

/-- Settles O6: the entry's range is exceeded, whatever the zero field holds. -/
theorem indexOutOfRangeRaisesIllegalCommand : Obligations.IndexOutOfRangeRaisesIllegalCommand := by
  refine fun s hf => ⟨?_, ?_⟩
  · rintro cw (hop | hop) hi
    · exact hostIssue_of_not_admits hf (.formatI maxRound .rdrk) (by simp [opcodeMap, hop]) fun h => Nat.not_le.2 hi h.2
    · exact hostIssue_of_not_admits hf (.formatI maxRound .ark) (by simp [opcodeMap, hop]) fun h => Nat.not_le.2 hi h.2
  · intro cw hop hi
    exact hostIssue_of_not_admits hf (.formatI maxRcon .rcon) (by simp [opcodeMap, hop]) fun h => Nat.not_le.2 hi h.2

/-- Settles O7: each example word is the word of its command. -/
theorem exampleWordsDecode : Obligations.ExampleWordsDecode :=
  ⟨decode_encode (i := .nop) rfl, decode_encode (i := .gfdbl 0x57) rfl, decode_encode (i := .gfmul 0x57 0x83) rfl,
    decode_encode (i := .sbox 0x53) rfl, decode_encode (i := .rcon 9) rfl, decode_encode (i := .rdrk 10) rfl,
    decode_encode (i := .ark 0) rfl, decode_encode (i := .ecbe) rfl⟩

end Sys2Proof.Machine

/-! SUPPORT. The rules of spec/40_gf_arithmetic.md: doubling is additive and a product is an XOR of doublings, so a map
that is additive and commutes with doubling passes through a product. The laws of R84 follow, but for the inverses. -/

namespace Sys2Proof.Machine

/-! ## Doubling (R80) -/

/-- R80: the reduction is an XOR that only the high bit switches. -/
theorem double_eq_shift_xor (a : Byte) : double a = a <<< 1 ^^^ if a.getLsbD 7 then 0x1b else 0 := by
  unfold double
  split
  · rfl
  · exact BitVec.xor_zero.symm

theorem double_xor (a b : Byte) : double (a ^^^ b) = double a ^^^ double b := by
  have hreduce (p q : Bool) :
      (if p ^^ q then 0x1b else 0 : Byte) = (if p then 0x1b else 0) ^^^ if q then 0x1b else 0 := by
    cases p <;> cases q <;> rfl
  simp only [double_eq_shift_xor, BitVec.shiftLeft_xor_distrib, BitVec.getLsbD_xor, hreduce]
  ac_rfl

theorem iterate_double_xor (a b : Byte) (n : Nat) : double^[n] (a ^^^ b) = double^[n] a ^^^ double^[n] b := by
  induction n with
  | zero => rfl
  | succ n ih => simp only [Function.iterate_succ_apply', ih, double_xor]

/-- R80: the high bit is lost in the shift, so that 0x100 is taken off where it was set. -/
theorem double_toNat (a : Byte) :
    (double a).toNat = if a.toNat < 128 then 2 * a.toNat else (2 * a.toNat - 256) ^^^ 0x1b := by
  have hhigh : a.getLsbD 7 = decide (128 ≤ a.toNat) := BitVec.msb_eq_decide a
  have hshift : (a <<< 1).toNat = 2 * a.toNat % 256 := by simp [Nat.shiftLeft_eq, Nat.mul_comm]
  have hlt := a.isLt
  by_cases h : a.toNat < 128
  · rw [double, hhigh, if_neg (by simpa using h), if_pos h, hshift, Nat.mod_eq_of_lt (by omega)]
  · rw [double, hhigh, if_pos (by simpa using h), if_neg h, BitVec.toNat_xor, hshift,
      show 2 * a.toNat % 256 = 2 * a.toNat - 256 by omega]
    rfl

/-! ## A product is an XOR of doublings (R81) -/

/-- R81: `p` after the passes for the bits below `n`: the XOR of the doublings of `a` that those bits of `b` select. -/
def partialProduct (a b : Byte) (n : Nat) : Byte :=
  ((List.range n).map fun i => if b.getLsbD i then double^[i] a else 0).foldl (· ^^^ ·) 0

@[simp] theorem partialProduct_zero (a b : Byte) : partialProduct a b 0 = 0 := rfl

theorem partialProduct_succ (a b : Byte) (n : Nat) :
    partialProduct a b (n + 1) = partialProduct a b n ^^^ if b.getLsbD n then double^[n] a else 0 := by
  simp [partialProduct, List.range_succ]

/-- R81: the loop's `x` is `a` doubled once for each pass. -/
theorem foldl_multiplyStep (a b : Byte) (n : Nat) :
    (List.range n).foldl (multiplyStep b) (0, a) = (partialProduct a b n, double^[n] a) := by
  induction n with
  | zero => rfl
  | succ n ih =>
    rw [List.range_succ, List.foldl_append, ih, partialProduct_succ, Function.iterate_succ_apply']
    cases hbit : b.getLsbD n <;> simp [multiplyStep, hbit]

theorem multiply_eq_partialProduct (a b : Byte) : multiply a b = partialProduct a b 8 := by
  rw [multiply, foldl_multiplyStep]

theorem partialProduct_xor_left (a b c : Byte) (n : Nat) :
    partialProduct (a ^^^ b) c n = partialProduct a c n ^^^ partialProduct b c n := by
  induction n with
  | zero => simp
  | succ n ih =>
    simp only [partialProduct_succ, ih, iterate_double_xor]
    cases c.getLsbD n
    · simp
    · simp only [if_true]
      ac_rfl

theorem multiply_xor_left (a b c : Byte) : multiply (a ^^^ b) c = multiply a c ^^^ multiply b c := by
  simp only [multiply_eq_partialProduct, partialProduct_xor_left]

/-- The doublings of 0x01 are the powers of two, so their XOR over the low bits of `b` has exactly those bits. -/
theorem getLsbD_partialProduct_one (b : Byte) (i : Nat) {n : Nat} (hn : n ≤ 8) :
    (partialProduct 1 b n).getLsbD i = (decide (i < n) && b.getLsbD i) := by
  have hpow : ∀ k < 8, double^[k] 1 = BitVec.twoPow 8 k := by decide
  induction n with
  | zero => simp
  | succ n ih =>
    rw [partialProduct_succ, BitVec.getLsbD_xor, ih (by omega), hpow n hn]
    rcases lt_trichotomy i n with h | rfl | h
    · cases b.getLsbD n <;> simp [BitVec.getLsbD_twoPow, h, h.ne', Nat.lt_succ_of_lt h]
    · cases b.getLsbD i <;> simp [Nat.lt_of_succ_le hn]
    · cases b.getLsbD n <;> simp [BitVec.getLsbD_twoPow, h.ne, h.not_gt, show ¬ i < n + 1 by omega]

theorem one_multiply (b : Byte) : multiply 1 b = b := by
  rw [multiply_eq_partialProduct]
  refine BitVec.eq_of_getLsbD_eq fun i hi => ?_
  rw [getLsbD_partialProduct_one b i le_rfl, decide_eq_true hi, Bool.true_and]

/-! ## The maps that commute with addition and doubling -/

/-- A map on bytes that is additive and commutes with doubling. -/
structure IsLinear (f : Byte → Byte) : Prop where
  map_xor : ∀ a b, f (a ^^^ b) = f a ^^^ f b
  map_double : Function.Commute f double

namespace IsLinear

variable {f : Byte → Byte}

theorem map_zero (h : IsLinear f) : f 0 = 0 := by
  have hsum := h.map_xor 0 0
  rwa [BitVec.xor_self, BitVec.xor_self] at hsum

theorem map_partialProduct (h : IsLinear f) (a b : Byte) (n : Nat) :
    f (partialProduct a b n) = partialProduct (f a) b n := by
  induction n with
  | zero => exact h.map_zero
  | succ n ih =>
    rw [partialProduct_succ, partialProduct_succ, h.map_xor, ih, apply_ite f, h.map_zero,
      h.map_double.iterate_right n a]

theorem map_multiply (h : IsLinear f) (a b : Byte) : f (multiply a b) = multiply (f a) b := by
  simp only [multiply_eq_partialProduct, h.map_partialProduct]

end IsLinear

theorem isLinear_double : IsLinear double := ⟨double_xor, .refl double⟩

theorem double_multiply (a b : Byte) : double (multiply a b) = multiply (double a) b := isLinear_double.map_multiply a b

theorem isLinear_multiply_right (c : Byte) : IsLinear (multiply · c) :=
  ⟨fun a b => multiply_xor_left a b c, fun a => (double_multiply a c).symm⟩

/-! ## The laws (R84) -/

theorem multiply_right_comm (a b c : Byte) : multiply (multiply a b) c = multiply (multiply a c) b :=
  (isLinear_multiply_right c).map_multiply a b

theorem multiply_comm (a b : Byte) : multiply a b = multiply b a := by
  simpa only [one_multiply] using multiply_right_comm 1 a b

theorem multiply_xor_right (a b c : Byte) : multiply a (b ^^^ c) = multiply a b ^^^ multiply a c := by
  simp only [multiply_comm a, multiply_xor_left]

theorem multiply_assoc (a b c : Byte) : multiply (multiply a b) c = multiply a (multiply b c) := by
  rw [multiply_comm a b, multiply_right_comm, multiply_comm]

theorem multiply_two (a : Byte) : multiply a 0x02 = double a :=
  calc multiply a 0x02 = multiply (double 1) a := multiply_comm a _
    _ = double (multiply 1 a) := (double_multiply 1 a).symm
    _ = double a := by rw [one_multiply]

/-- A byte's right inverse is its only one. -/
theorem eq_of_multiply_eq_one {a b c : Byte} (hb : multiply a b = 1) (hc : multiply a c = 1) : c = b :=
  calc c = multiply (multiply a b) c := by rw [hb, one_multiply]
    _ = multiply (multiply a c) b := multiply_right_comm a b c
    _ = b := by rw [hc, one_multiply]

/-- R90: SBOX is an affine map of the inverse; this undoes that map. -/
def inverse (a : Byte) : Byte :=
  (sbox a).rotateLeft 1 ^^^ (sbox a).rotateLeft 3 ^^^ (sbox a).rotateLeft 6 ^^^ 0x05

/-- One product for each of the 255 bytes. -/
theorem multiply_inverse : ∀ a : Byte, a ≠ 0 → multiply a (inverse a) = 1 := by decide +kernel

/-- R80: 0x8d is the inverse of 0x02. -/
theorem double_bijective : Function.Bijective double := by
  refine Function.bijective_iff_has_inverse.2 ⟨multiply 0x8d, fun a => ?_, fun a => ?_⟩
  · rw [← multiply_two, multiply_comm a, ← multiply_assoc]
    exact one_multiply a
  · rw [double_multiply]
    exact one_multiply a

/-! ## The commands GFDBL and GFMUL (R82, R83) -/

/-- R5: there is room for one byte in every OBUF. -/
theorem command_deliver_byte {s : State} (h : s.Running) (v : Byte) :
    command s [] (deliver [v]) = .next (s.withOutput [v]) := by
  obtain ⟨-, hcap, -⟩ := h.inv.cap_admissible
  rw [command_effect h.not_fatal firstRaised_nil]
  exact deliver_sound h.inv ((show 1 ≤ 32 by decide).trans hcap)

theorem exec_gfdbl (s : State) (a : Byte) : exec (.gfdbl a) s = command s [] (deliver [double a]) := rfl

theorem exec_gfmul (s : State) (a b : Byte) : exec (.gfmul a b) s = command s [] (deliver [multiply a b]) := rfl

/-! ## The obligations of spec/40_gf_arithmetic.md -/

/-- Settles O19: multiplying by a byte is linear, so products commute on the right; SBOX has the inverses. -/
theorem multiplyLaws : Obligations.MultiplyLaws :=
  ⟨multiply_comm, multiply_xor_right, multiply_assoc,
    fun a ha => ⟨inverse a, multiply_inverse a ha, fun _ => eq_of_multiply_eq_one (multiply_inverse a ha)⟩,
    multiply_two⟩

/-- Settles O17: doubling is multiplication by the invertible byte 0x02, and the word is that of format A. -/
theorem gfdblDeliversTheDoubledByte : Obligations.GfdblDeliversTheDoubledByte := by
  refine ⟨fun s a hs => ?_, double_toNat, double_bijective, fun a => decode_encode (i := .gfdbl a) rfl,
    fun s z a hf hz => ?_, fun s a hf => ?_⟩
  · exact (exec_gfdbl s a).trans (command_deliver_byte hs _)
  · exact hostIssue_of_not_admits hf (.formatA .gfdbl) (by simp [opcodeMap]) fun h =>
      hz ((zeroA_formatA _ _ _).symm.trans h)
  · exact (exec_gfdbl s a).trans (command_fatal hf _ _)

/-- Settles O18: the loop's sum is the XOR of its passes, and the word is that of format B. -/
theorem gfmulDeliversTheProduct : Obligations.GfmulDeliversTheProduct := by
  refine ⟨fun s a b hs => ?_, multiply_eq_partialProduct, fun a b => decode_encode (i := .gfmul a b) rfl,
    fun s z a b hf hz => ?_, fun s a b hf => ?_⟩
  · exact (exec_gfmul s a b).trans (command_deliver_byte hs _)
  · exact hostIssue_of_not_admits hf (.formatB .gfmul) (by simp [opcodeMap]) fun h =>
      hz ((zeroB_formatB _ _ _ _).symm.trans h)
  · exact (exec_gfmul s a b).trans (command_fatal hf _ _)

end Sys2Proof.Machine

/-! SUPPORT. The rules of spec/41_constant_tables.md: an entry stands at the row and column of its index, a table command
delivers it, and the tables' laws, of which the last two rest on the laws of multiply. -/

namespace Sys2Proof.Machine

/-! ## Where an entry stands (R90 to R92) -/

theorem romByte_eq_row_column (rows : List (List Byte)) (i : Nat) :
    romByte rows i = (rows.getD (i / 16) [])[i % 16]? := by
  rw [romByte, List.getD_eq_getElem?_getD]
  cases rows[i / 16]? <;> rfl

/-- R92: a table of one row is read by its column alone. -/
theorem romByte_singleton (row : List Byte) {i : Nat} (h : i < 16) : romByte [row] i = row[i]? := by
  rw [romByte_eq_row_column, Nat.div_eq_of_lt h, Nat.mod_eq_of_lt h]
  rfl

/-! ## The table commands (R93 to R95) -/

/-- R97: where a read answers the same bytes in every state, the effect on them is all that is left of the command. -/
theorem withBytes_of_forall_memRead {space : Space} {addr n : Nat} {bs : List Byte}
    (h : ∀ s, memRead s space addr n = some bs) (k : List Byte → State → Result) : withBytes space addr n k = k bs := by
  funext s
  rw [withBytes, h s]

theorem exec_sbox (s : State) (a : Byte) : exec (.sbox a) s = command s [] (deliver [sbox a]) :=
  congrArg (command s []) (withBytes_of_forall_memRead (memRead_sbox · a) deliver)

theorem exec_isbox (s : State) (a : Byte) : exec (.isbox a) s = command s [] (deliver [isbox a]) :=
  congrArg (command s []) (withBytes_of_forall_memRead (memRead_isbox · a) deliver)

theorem exec_rcon (s : State) (idx : BitVec 4) : exec (.rcon idx) s =
    command s [(badRcon idx, .illegalCommand)] (withBytes .rcon idx.toNat 1 deliver) := rfl

/-- R95: an index in range passes the only check. -/
theorem exec_rcon_of_le (s : State) {idx : BitVec 4} (h : idx.toNat ≤ 9) :
    exec (.rcon idx) s = command s [] (deliver [rcon idx.toNat]) := by
  rw [exec_rcon, badRcon_eq_false.2 h, withBytes_of_forall_memRead (memRead_rcon · h)]
  rfl

/-- R69: a word of format A with a bit of 23:8 set. -/
theorem hostIssue_formatA_of_zeroField_ne_zero {s : State} {op a : Byte} {z : BitVec 16} {mk : Byte → Instr}
    (he : (op, .formatA mk) ∈ opcodeMap) (hf : s.fatal = false) (hz : z ≠ 0) :
    hostIssue (op ++ z ++ a) s = .next { s with err := 3 } :=
  hostIssue_of_not_admits hf (.formatA mk) (by rwa [opField_formatA]) fun h => hz ((zeroA_formatA op a z).symm.trans h)

/-- R69, R70: a word of format I is admitted only with bits 23:4 clear and its index in range. -/
theorem admits_formatI {op : Byte} {z : BitVec 20} {idx : BitVec 4} {top : Nat} {mk : BitVec 4 → Instr}
    (h : (CommandFormat.formatI top mk).Admits (op ++ z ++ idx)) : z = 0 ∧ idx.toNat ≤ top := by
  rwa [CommandFormat.Admits, zeroI_formatI, idxField_formatI] at h

/-! ## The tables are inverse to each other (R96) -/

/-- One lookup in each table for each of the 256 bytes. -/
theorem isbox_sbox : Function.LeftInverse isbox sbox := by unfold Function.LeftInverse; decide +kernel

/-- R96: "an injective map of a finite set to itself is onto". -/
theorem sbox_isbox : Function.RightInverse isbox sbox :=
  isbox_sbox.rightInverse_of_surjective (Finite.surjective_of_injective isbox_sbox.injective)

/-- R96: "by inspection of rule R90's table". -/
theorem sbox_ne_self_and_ne_complement : ∀ b : Byte, sbox b ≠ b ∧ sbox b ≠ b ^^^ 0xff := by decide +kernel

/-! ## The generating formulas (R90, R92) -/

/-- R90: the sum of a byte, its rotations by 1 to 4 and 0x63. -/
def affineImage (y : Byte) : Byte :=
  y ^^^ y.rotateLeft 1 ^^^ y.rotateLeft 2 ^^^ y.rotateLeft 3 ^^^ y.rotateLeft 4 ^^^ 0x63

/-- The rotations in `inverse` undo those of R90: in the sum of the composed rotations all but the one by 0 cancel. -/
theorem affineImage_inverse : ∀ x : Byte, affineImage (inverse x) = sbox x := by decide +kernel

/-- R90: "let `inv(0) = 0`". -/
theorem inverse_zero : inverse 0 = 0 := by decide

theorem zero_multiply (b : Byte) : multiply 0 b = 0 := (isLinear_multiply_right b).map_zero

theorem eq_inverse_of_multiply_eq_one {x y : Byte} (h : multiply x y = 1) : y = inverse x := by
  have hx : x ≠ 0 := by
    rintro rfl
    exact absurd ((zero_multiply y).symm.trans h) (by decide)
  exact eq_of_multiply_eq_one (multiply_inverse x hx) h

theorem rcon_succ : ∀ k, k < 9 → rcon (k + 1) = double (rcon k) := by decide

/-! ## The obligations of spec/41_constant_tables.md -/

/-- Settles O20: the lookups are total, so each command delivers one byte; the words are those of formats A and I. -/
theorem tableCommandsDeliverTheEntry : Obligations.TableCommandsDeliverTheEntry := by
  refine ⟨fun s hs => ⟨fun a => ?_, fun a => ?_, fun idx hi => ?_⟩,
    fun a => ⟨decode_encode (i := .sbox a) rfl, decode_encode (i := .isbox a) rfl⟩,
    fun idx hi => decode_encode (i := .rcon idx) (decide_eq_true hi), fun s z a hf hz => ⟨?_, ?_⟩,
    fun s z idx hf hbad => ?_, fun s a idx hf => ⟨?_, ?_, ?_⟩⟩
  · exact ⟨sbox a, (exec_sbox s a).trans (command_deliver_byte hs _),
      (romByte_eq_row_column _ _).symm.trans (sbox_entry a), rfl⟩
  · exact ⟨isbox a, (exec_isbox s a).trans (command_deliver_byte hs _),
      (romByte_eq_row_column _ _).symm.trans (isbox_entry a), rfl⟩
  · exact ⟨rcon idx.toNat, (exec_rcon_of_le s hi).trans (command_deliver_byte hs _),
      (romByte_singleton _ idx.isLt).symm.trans (rcon_entry _ hi)⟩
  · exact hostIssue_formatA_of_zeroField_ne_zero (mk := .sbox) (by simp [opcodeMap]) hf hz
  · exact hostIssue_formatA_of_zeroField_ne_zero (mk := .isbox) (by simp [opcodeMap]) hf hz
  · refine hostIssue_of_not_admits hf (.formatI maxRcon .rcon) (by simp [opcodeMap]) fun h => ?_
    obtain ⟨hz, hi⟩ := admits_formatI h
    rcases hbad with hne | hten
    · exact hne hz
    · exact absurd (hten.trans hi) (by decide)
  · exact (exec_sbox s a).trans (command_fatal hf _ _)
  · exact (exec_isbox s a).trans (command_fatal hf _ _)
  · exact (exec_rcon s idx).trans (command_fatal hf _ _)

/-- Settles O21: ISBOX undoes SBOX byte by byte, which makes SBOX a bijection and ISBOX its inverse on both sides. -/
theorem sboxAndIsboxAreInverse : Obligations.SboxAndIsboxAreInverse :=
  ⟨isbox_sbox, sbox_isbox, sbox_ne_self_and_ne_complement⟩

/-- Settles O22: an inverse is unique, so the formula needs checking at `inverse` only. -/
theorem tablesFollowTheirFormulas : Obligations.TablesFollowTheirFormulas := by
  refine ⟨fun x y hxy => ?_, rfl, rcon_succ⟩
  have hy : y = inverse x := by
    rcases hxy with ⟨rfl, rfl⟩ | hone
    · exact inverse_zero.symm
    · exact eq_inverse_of_multiply_eq_one hone
  exact hy ▸ (affineImage_inverse x).symm

end Sys2Proof.Machine

/-! SUPPORT. The rules of spec/42_key_schedule.md: the words of the schedule obey the recurrence, a round key is read off
them, and what the three commands do. The rules on raising, on a whole block and on a format I word serve other commands
too. -/

namespace Sys2Proof.Machine

/-! ## Raising an error (R176) -/

/-- R172: an error that is not ConfigError writes ERR and nothing else. -/
theorem raise_of_not_isFatal {e : CommandError} (he : e.isFatal = false) (s : State) :
    raise e s = { s with err := e.code } := by
  rw [raise, he, Bool.or_false]

theorem raise_config (s : State) : raise .config s = { s with err := 1, fatal := true } := by
  rw [raise, CommandError.isFatal, Bool.or_true, CommandError.code]

theorem command_raises_of_not_isFatal {s : State} (hf : s.fatal = false) {checks : List (Bool × CommandError)}
    {e : CommandError} (hc : firstRaised checks = some e) (he : e.isFatal = false) (effect : State → Result) :
    command s checks effect = .next { s with err := e.code } := by
  rw [command_raises hf hc, raise_of_not_isFatal he]

/-! ## A whole block of input or output (R45) -/

theorem ilen_eq_of_input {s : State} {m : List Byte} (h : s.Input m) (hl : m.length = 16) : s.ilen = 16#32 :=
  BitVec.eq_of_toNat_eq ((input_length h).symm.trans hl)

/-- R41: byte `j` of 16 bytes is byte `j` of the block made of them. -/
theorem getElem?_eq_blockOfBytes_byte {bs : List Byte} (h : bs.length = 16) (j : Fin 16) :
    bs[j.val]? = some ((blockOfBytes bs).byte j) := by
  simpa only [blockToBytes_blockOfBytes h] using blockToBytes_getElem (blockOfBytes bs) j

/-- R5: there is room for a block in every OBUF. -/
theorem deliver_block {s : State} (h : s.Inv) (b : Block) :
    deliver (blockToBytes b) s = .next (s.withOutput (blockToBytes b)) := by
  obtain ⟨-, hcap, -⟩ := h.cap_admissible
  exact deliver_sound h ((show 16 ≤ 32 by decide).trans hcap)

/-! ## The words of the schedule (R101) -/

/-- R101: `n` words of the recurrence behind the four that they start from. -/
def scheduleFrom (n i : Nat) (back4 back3 back2 back1 : Word) : List Word :=
  back4 :: back3 :: back2 :: back1 :: wordsFrom n i back4 back3 back2 back1

@[simp] theorem length_scheduleFrom (n i : Nat) (a b c d : Word) : (scheduleFrom n i a b c d).length = n + 4 := by
  simp [scheduleFrom, wordsFrom_length]

/-- One step on, the window of four words has moved by one. -/
theorem scheduleFrom_succ (n i : Nat) (a b c d : Word) :
    scheduleFrom (n + 1) i a b c d = a :: scheduleFrom n (i + 1) b c d (a.xor (scheduleTemp i d)) := rfl

/-- R101: `w[i] = w[i-4] XOR temp`, for the `j`-th word after the first four. -/
theorem getElem_scheduleFrom {n j : Nat} (hj : j < n) (i : Nat) (a b c d : Word) :
    (scheduleFrom n i a b c d)[j + 4]'(by simp; omega) =
      ((scheduleFrom n i a b c d)[j]'(by simp; omega)).xor
        (scheduleTemp (j + i) ((scheduleFrom n i a b c d)[j + 3]'(by simp; omega))) := by
  induction n generalizing i j a b c d with
  | zero => omega
  | succ n ih =>
    cases j with
    | zero => rw [Nat.zero_add i]; rfl
    | succ j =>
      simpa only [scheduleFrom_succ, List.getElem_cons_succ, show j + 1 + i = j + (i + 1) by omega] using
        ih (Nat.lt_of_succ_lt_succ hj) (i + 1) b c d (a.xor (scheduleTemp i d))

/-- R101: the 44 words are the four groups of the key and the recurrence's 40 words behind them. -/
theorem keyExpand_get (k : Block) {i : Nat} (hi : i < 44) :
    (keyExpand k).get ⟨i, hi⟩ = (scheduleFrom 40 4 k.w0 k.w1 k.w2 k.w3)[i]'(by simpa using hi) := rfl

/-- R101: "First 4 words = the key split into 4-byte groups". -/
theorem keyExpand_get_key (k : Block) (i : Fin 4) : (keyExpand k).get ⟨i.val, by omega⟩ = k.word i := by
  fin_cases i <;> rfl

/-- R101: the recurrence, with the word index counted from the first of the four words before. -/
theorem keyExpand_get_add_four (k : Block) {j : Nat} (hj : j < 40) :
    (keyExpand k).get ⟨j + 4, by omega⟩ =
      ((keyExpand k).get ⟨j, by omega⟩).xor (scheduleTemp (j + 4) ((keyExpand k).get ⟨j + 3, by omega⟩)) := by
  simpa only [keyExpand_get] using getElem_scheduleFrom hj 4 k.w0 k.w1 k.w2 k.w3

/-- R101: rotated, then substituted, then the constant. -/
theorem scheduleTemp_eq (i : Nat) (t : Word) : scheduleTemp i t =
    if i % 4 = 0 then ⟨sbox t.b1 ^^^ rcon (i / 4 - 1), sbox t.b2, sbox t.b3, sbox t.b0⟩ else t := rfl

/-! ## Round keys (R102) -/

theorem roundKey_word (w : Schedule) (r : Fin 11) (i : Fin 4) :
    (roundKey w r).word i = w.get ⟨4 * r.val + i.val, by omega⟩ := by
  fin_cases i <;> rfl

/-- R102: "Round key 0 is the key itself". -/
theorem roundKey_keyExpand_zero (k : Block) : roundKey (keyExpand k) 0 = k := rfl

/-- R70: an index in range is the round number. -/
theorem roundIndex_of_le {idx : BitVec 4} (h : idx.toNat ≤ 10) : roundIndex idx = ⟨idx.toNat, by omega⟩ :=
  Fin.ext (Nat.mod_eq_of_lt (by omega))

theorem roundKeyOperand_word (s : State) {idx : BitVec 4} (h : idx.toNat ≤ 10) (i : Fin 4) :
    (roundKeyOperand idx s).word i = s.w.get ⟨4 * idx.toNat + i.val, by omega⟩ := by
  rw [roundKeyOperand, roundIndex_of_le h, roundKey_word]

/-- R102: byte `k` of round key `r` is `W[4r + k/4][k % 4]`. -/
theorem roundKeyOperand_byte (s : State) {idx : BitVec 4} (h : idx.toNat ≤ 10) (k : Fin 16) :
    (roundKeyOperand idx s).byte k =
      (s.w.get ⟨4 * idx.toNat + k.val / 4, by omega⟩).byte ⟨k.val % 4, by omega⟩ := by
  rw [Block.byte, roundKeyOperand_word s h]

/-- R15, R102: in a sound state with round keys the first one is KEY. -/
theorem roundKeyOperand_zero {s : State} (h : s.Inv) (hr : s.rkv = true) : roundKeyOperand 0 s = s.key := by
  obtain ⟨-, hw⟩ := h.rkv_schedule hr
  rw [roundKeyOperand, hw]
  exact roundKey_keyExpand_zero s.key

/-! ## The commands LDKEY, KEXP and RDRK (R103 to R105) -/

theorem exec_ldkey (s : State) : exec .ldkey s =
    command s [(s.kv, .sequence), (notOneBlock s, .config)]
      (withBlock fun k t => complete { t with key := k, kv := true }) := rfl

theorem exec_kexp (s : State) : exec .kexp s =
    command s [(!s.kv, .sequence)] fun t => complete { t with w := keyExpand t.key, rkv := true } := rfl

theorem exec_rdrk (s : State) (idx : BitVec 4) : exec (.rdrk idx) s =
    command s [(badRound idx, .illegalCommand), (!s.rkv, .sequence)] fun t =>
      deliver (blockToBytes (roundKeyOperand idx t)) t := rfl

/-- R103: the first load takes the block in IBUF. -/
theorem exec_ldkey_of_input {s : State} {m : List Byte} (hf : s.fatal = false) (hk : s.kv = false) (hm : s.Input m)
    (hl : m.length = 16) : exec .ldkey s = .next { s with key := blockOfBytes m, kv := true, err := 0 } := by
  have hi := ilen_eq_of_input hm hl
  rw [exec_ldkey, command_effect hf (by simp [hk, hi]), withBlock_eq hm hi]
  rfl

/-- R172: without a key a length other than 16 raises the fatal ConfigError. -/
theorem exec_ldkey_of_ilen_ne {s : State} (hf : s.fatal = false) (hk : s.kv = false) (hi : s.ilen ≠ 16) :
    exec .ldkey s = .next { s with err := 1, fatal := true } := by
  have hn : notOneBlock s = true := notOneBlock_eq_true.2 hi
  rw [exec_ldkey, command_raises hf (e := .config) (by simp [hk, hn]), raise_config]

/-- R105: with round keys RDRK delivers the one its index names. -/
theorem exec_rdrk_of_le {s : State} (hs : s.Running) (hr : s.rkv = true) {idx : BitVec 4} (h : idx.toNat ≤ 10) :
    exec (.rdrk idx) s = .next (s.withOutput (blockToBytes (roundKeyOperand idx s))) := by
  rw [exec_rdrk, command_effect hs.not_fatal (by simp [hr, badRound_eq_false.2 h]), deliver_block hs.inv]

/-- R69, R70: a word of format I with a bit of 23:4 set or with its index out of range. -/
theorem hostIssue_formatI_of_not_admitted {s : State} {op : Byte} {z : BitVec 20} {idx : BitVec 4} {top : Nat}
    {mk : BitVec 4 → Instr} (he : (op, .formatI top mk) ∈ opcodeMap) (hf : s.fatal = false)
    (hbad : z ≠ 0 ∨ top < idx.toNat) : hostIssue (op ++ z ++ idx) s = .next { s with err := 3 } := by
  refine hostIssue_of_not_admits hf (.formatI top mk) (by rwa [opField_formatI]) fun h => ?_
  obtain ⟨hz, hi⟩ := admits_formatI h
  rcases hbad with hne | hlt
  · exact hne hz
  · exact Nat.not_le.2 hlt hi

/-! ## The obligations of spec/42_key_schedule.md -/

/-- Settles O23: KV is checked first, so a second load raises SequenceError whatever the length. -/
theorem ldkeyLoadsTheKeyOnce : Obligations.LdkeyLoadsTheKeyOnce := by
  refine ⟨fun s m hs hk hm hl => ?_, fun s hf hk => ?_, fun s => exec_ldkey_of_ilen_ne, decode_encode (i := .ldkey) rfl⟩
  · exact ⟨blockOfBytes m, exec_ldkey_of_input hs.not_fatal hk hm hl, getElem?_eq_blockOfBytes_byte hl⟩
  · exact (exec_ldkey s).trans (command_raises_of_not_isFatal hf (e := .sequence) (by simp [hk]) rfl _)

/-- Settles O25: a word index from 4 on is the fourth after some `j`, where the recurrence holds by induction on the number
of words. -/
theorem keyExpandFollowsTheRecurrence : Obligations.KeyExpandFollowsTheRecurrence := by
  refine fun k => ⟨keyExpand_get_key k, ?_⟩
  rintro i ⟨hi, hlt⟩ t rfl
  obtain ⟨j, rfl⟩ := Nat.exists_eq_add_of_le' hi
  rw [← scheduleTemp_eq]
  exact keyExpand_get_add_four k (Nat.lt_of_add_lt_add_right hlt)

/-- Settles O26: the 16 bytes are those of four words of W, and in a sound state W is the schedule of KEY. -/
theorem rdrkDeliversTheRoundKey : Obligations.RdrkDeliversTheRoundKey := by
  refine ⟨fun s idx hs hr h => ?_, fun s idx hf hr h => ?_, fun idx h => decode_encode (i := .rdrk idx) (decide_eq_true h),
    fun s z idx hf hbad => hostIssue_formatI_of_not_admitted (mk := .rdrk) (top := maxRound) (by simp [opcodeMap]) hf hbad⟩
  · refine ⟨_, exec_rdrk_of_le hs hr h, blockToBytes_length _, fun k => ?_, ?_⟩
    · rw [blockToBytes_getElem, roundKeyOperand_byte s h]
    · rintro rfl k
      rw [blockToBytes_getElem, roundKeyOperand_zero hs.inv hr]
  · exact (exec_rdrk s idx).trans
      (command_raises_of_not_isFatal hf (e := .sequence) (by simp [hr, badRound_eq_false.2 h]) rfl _)

/-- Settles O24: the only check is that of KV. -/
theorem kexpWritesTheSchedule : Obligations.KexpWritesTheSchedule := by
  refine ⟨fun s hf hk => ?_, fun s hf hk => ?_, decode_encode (i := .kexp) rfl⟩
  · exact (exec_kexp s).trans (command_effect hf (by simp [hk]) _)
  · exact (exec_kexp s).trans (command_raises_of_not_isFatal hf (e := .sequence) (by simp [hk]) rfl _)

end Sys2Proof.Machine

/-! SUPPORT. The rules of spec/43_state_transform.md: the byte or the column that each transform gives, the laws of the
transforms, and what the nine commands do with S. A column is a polynomial modulo `x^4 + 1` with bytes as coefficients,
and the two column mixes are products with two polynomials that are inverse to each other. -/

namespace Sys2Proof

/-! ## Bytes by row and column (R110, R111) -/

theorem Mat.ext_col {m n : Mat} (h : ∀ c, m.col c = n.col c) : m = n :=
  Mat.ext_get fun r c => congrArg (·.byte r) (h c)

/-- R110: byte `4c + r` is byte `r` of group `c`. -/
theorem Block.byte_four_mul_add (b : Block) (r c : Fin 4) : b.byte ⟨4 * c.val + r.val, by omega⟩ = (b.word c).byte r := by
  have hgroup : (4 * c.val + r.val) / 4 = c.val := by omega
  have hplace : (4 * c.val + r.val) % 4 = r.val := by omega
  simp only [Block.byte, hgroup, hplace]

namespace Machine

/-! ## The byte or the column that each transform gives (R110 to R118) -/

@[simp] theorem get_bytesToState (b : Block) (r c : Fin 4) :
    (bytesToState b).get r c = b.byte ⟨4 * c.val + r.val, by omega⟩ := Mat.get_ofFn _ r c

@[simp] theorem byte_stateToBytes (s : Mat) (k : Fin 16) :
    (stateToBytes s).byte k = s.get ⟨k.val % 4, by omega⟩ ⟨k.val / 4, by omega⟩ := Block.byte_ofFn _ k

/-- R111: `b[4c + r] = s[r][c]`. -/
theorem byte_stateToBytes_four_mul_add (s : Mat) (r c : Fin 4) :
    (stateToBytes s).byte ⟨4 * c.val + r.val, by omega⟩ = s.get r c := by
  have hcol : (4 * c.val + r.val) / 4 = c.val := by omega
  have hrow : (4 * c.val + r.val) % 4 = r.val := by omega
  simp only [byte_stateToBytes, hcol, hrow]

@[simp] theorem get_addRoundKey (s : Mat) (k : Block) (r c : Fin 4) :
    (addRoundKey s k).get r c = s.get r c ^^^ (k.word c).byte r := by
  rw [← Block.byte_four_mul_add]
  exact Mat.get_ofFn _ r c

@[simp] theorem get_subBytes (s : Mat) (r c : Fin 4) : (subBytes s).get r c = sbox (s.get r c) := Mat.get_ofFn _ r c

@[simp] theorem get_invSubBytes (s : Mat) (r c : Fin 4) : (invSubBytes s).get r c = isbox (s.get r c) :=
  Mat.get_ofFn _ r c

@[simp] theorem get_shiftRows (s : Mat) (r c : Fin 4) : (shiftRows s).get r c = s.get r (c + r) := Mat.get_ofFn _ r c

@[simp] theorem get_invShiftRows (s : Mat) (r c : Fin 4) : (invShiftRows s).get r c = s.get r (c - r) :=
  Mat.get_ofFn _ r c

/-- R116: `s'[r][c] = s[r][(c + 4 − r) % 4]`. -/
theorem get_invShiftRows_mod_four (s : Mat) (r c : Fin 4) :
    (invShiftRows s).get r c = s.get r ⟨(c.val + 4 - r.val) % 4, by omega⟩ := by
  have hplace : c - r = ⟨(c.val + 4 - r.val) % 4, by omega⟩ := by
    rw [Fin.sub_def]
    exact Fin.ext (congrArg (· % 4) (by omega))
  rw [get_invShiftRows, hplace]

@[simp] theorem col_mixColumns (s : Mat) (c : Fin 4) : (mixColumns s).col c = mixColumn (s.col c) := Mat.col_ofCols _ c

@[simp] theorem col_invMixColumns (s : Mat) (c : Fin 4) : (invMixColumns s).col c = invMixColumn (s.col c) :=
  Mat.col_ofCols _ c

/-! ## Transforms byte by byte (R111, R112, R114, R116, R129) -/

theorem stateToBytes_bytesToState (b : Block) : stateToBytes (bytesToState b) = b :=
  Block.ext_byte fun k => by simp only [byte_stateToBytes, get_bytesToState, Nat.div_add_mod]

theorem bytesToState_stateToBytes (x : Mat) : bytesToState (stateToBytes x) = x :=
  Mat.ext_get fun r c => (get_bytesToState _ r c).trans (byte_stateToBytes_four_mul_add x r c)

/-- R121: "`ARK r` twice restores S". -/
theorem addRoundKey_addRoundKey (x : Mat) (k : Block) : addRoundKey (addRoundKey x k) k = x :=
  Mat.ext_get fun r c => by rw [get_addRoundKey, get_addRoundKey, BitVec.xor_assoc, BitVec.xor_self, BitVec.xor_zero]

theorem invSubBytes_subBytes (x : Mat) : invSubBytes (subBytes x) = x :=
  Mat.ext_get fun r c => by rw [get_invSubBytes, get_subBytes, isbox_sbox]

theorem subBytes_invSubBytes (x : Mat) : subBytes (invSubBytes x) = x :=
  Mat.ext_get fun r c => by rw [get_subBytes, get_invSubBytes, sbox_isbox]

theorem invShiftRows_shiftRows (x : Mat) : invShiftRows (shiftRows x) = x :=
  Mat.ext_get fun r c => by rw [get_invShiftRows, get_shiftRows, sub_add_cancel]

theorem shiftRows_invShiftRows (x : Mat) : shiftRows (invShiftRows x) = x :=
  Mat.ext_get fun r c => by rw [get_shiftRows, get_invShiftRows, add_sub_cancel_right]

/-- R125: to go left three times is to go right once, on a ring of four places. -/
theorem shiftRows_shiftRows_shiftRows (x : Mat) : shiftRows (shiftRows (shiftRows x)) = invShiftRows x := by
  have hturn : ∀ c r : Fin 4, c + r + r + r = c - r := by decide
  exact Mat.ext_get fun r c => by simp only [get_shiftRows, get_invShiftRows, hturn]

/-- R129: "one moves bytes without changing them, the other changes bytes without moving them". -/
theorem shiftRows_subBytes (x : Mat) : shiftRows (subBytes x) = subBytes (shiftRows x) :=
  Mat.ext_get fun r c => by simp only [get_shiftRows, get_subBytes]

/-! ## Columns as polynomials modulo `x^4 + 1` (R117, R118) -/

/-- The product of two columns as polynomials modulo `x^4 + 1`: byte `i` is the coefficient of `x^i`. -/
def columnMul (p q : Word) : Word :=
  ⟨multiply p.b0 q.b0 ^^^ multiply p.b3 q.b1 ^^^ multiply p.b2 q.b2 ^^^ multiply p.b1 q.b3,
   multiply p.b1 q.b0 ^^^ multiply p.b0 q.b1 ^^^ multiply p.b3 q.b2 ^^^ multiply p.b2 q.b3,
   multiply p.b2 q.b0 ^^^ multiply p.b1 q.b1 ^^^ multiply p.b0 q.b2 ^^^ multiply p.b3 q.b3,
   multiply p.b3 q.b0 ^^^ multiply p.b2 q.b1 ^^^ multiply p.b1 q.b2 ^^^ multiply p.b0 q.b3⟩

theorem columnMul_assoc (p q a : Word) : columnMul (columnMul p q) a = columnMul p (columnMul q a) := by
  simp only [columnMul, multiply_xor_left, multiply_xor_right, multiply_assoc, Word.mk.injEq]
  refine ⟨?_, ?_, ?_, ?_⟩ <;> ac_rfl

/-- The polynomial 1. -/
theorem one_columnMul (a : Word) : columnMul ⟨1, 0, 0, 0⟩ a = a := by
  simp only [columnMul, one_multiply, zero_multiply]
  simp

/-- R117: mixing a column is multiplication by this polynomial. -/
def mixPoly : Word := ⟨0x02, 0x01, 0x01, 0x03⟩

/-- R118: mixing a column back is multiplication by this polynomial. -/
def invMixPoly : Word := ⟨0x0e, 0x09, 0x0d, 0x0b⟩

theorem mixColumn_eq_columnMul (a : Word) : mixColumn a = columnMul mixPoly a := by
  simp only [mixColumn, columnMul, mixPoly, one_multiply]

theorem invMixColumn_eq_columnMul (a : Word) : invMixColumn a = columnMul invMixPoly a := rfl

theorem invMixPoly_mul_mixPoly : columnMul invMixPoly mixPoly = ⟨1, 0, 0, 0⟩ := by decide

theorem mixPoly_mul_invMixPoly : columnMul mixPoly invMixPoly = ⟨1, 0, 0, 0⟩ := by decide

theorem mixPoly_cubed : columnMul mixPoly (columnMul mixPoly mixPoly) = invMixPoly := by decide

theorem invMixColumn_mixColumn (a : Word) : invMixColumn (mixColumn a) = a := by
  rw [invMixColumn_eq_columnMul, mixColumn_eq_columnMul, ← columnMul_assoc, invMixPoly_mul_mixPoly, one_columnMul]

theorem mixColumn_invMixColumn (a : Word) : mixColumn (invMixColumn a) = a := by
  rw [invMixColumn_eq_columnMul, mixColumn_eq_columnMul, ← columnMul_assoc, mixPoly_mul_invMixPoly, one_columnMul]

theorem mixColumn_mixColumn_mixColumn (a : Word) : mixColumn (mixColumn (mixColumn a)) = invMixColumn a := by
  simp only [mixColumn_eq_columnMul, invMixColumn_eq_columnMul, ← mixPoly_cubed, columnMul_assoc]

theorem invMixColumns_mixColumns (x : Mat) : invMixColumns (mixColumns x) = x :=
  Mat.ext_col fun c => by rw [col_invMixColumns, col_mixColumns, invMixColumn_mixColumn]

theorem mixColumns_invMixColumns (x : Mat) : mixColumns (invMixColumns x) = x :=
  Mat.ext_col fun c => by rw [col_mixColumns, col_invMixColumns, mixColumn_invMixColumn]

/-- R127: "the matrix of rule R117 has order 4", so its cube is its inverse. -/
theorem mixColumns_mixColumns_mixColumns (x : Mat) : mixColumns (mixColumns (mixColumns x)) = invMixColumns x :=
  Mat.ext_col fun c => by simp only [col_mixColumns, col_invMixColumns, mixColumn_mixColumn_mixColumn]

/-! ## The commands LDST, STST and ARK (R119 to R121) -/

theorem exec_ldst (s : State) : exec .ldst s =
    command s [(notOneBlock s, .format)]
      (withBlock fun b t => complete { t with smat := bytesToState b, sv := true }) := rfl

theorem exec_stst (s : State) : exec .stst s =
    command s [(!s.sv, .sequence)] fun t => deliver (blockToBytes (stateToBytes t.smat)) t := rfl

theorem exec_ark (s : State) (idx : BitVec 4) : exec (.ark idx) s =
    command s [(badRound idx, .illegalCommand), (!(s.sv && s.rkv), .sequence)] fun t =>
      complete { t with smat := addRoundKey t.smat (roundKeyOperand idx t) } := rfl

/-- R119: LDST loads the block in IBUF. -/
theorem exec_ldst_of_input {s : State} {m : List Byte} (hf : s.fatal = false) (hm : s.Input m) (hl : m.length = 16) :
    exec .ldst s = .next { s with smat := bytesToState (blockOfBytes m), sv := true, err := 0 } := by
  have hi := ilen_eq_of_input hm hl
  rw [exec_ldst, command_effect hf (by simp [hi]), withBlock_eq hm hi]
  rfl

/-- R121: with a state and round keys ARK adds the one its index names. -/
theorem exec_ark_of_le {s : State} {idx : BitVec 4} (hf : s.fatal = false) (hv : s.sv = true) (hr : s.rkv = true)
    (h : idx.toNat ≤ 10) :
    exec (.ark idx) s = .next { s with smat := addRoundKey s.smat (roundKeyOperand idx s), err := 0 } := by
  rw [exec_ark, command_effect hf (by simp [hv, hr, badRound_eq_false.2 h])]
  rfl

/-! ## The commands that only need a state (R122 to R127) -/

theorem exec_subb (s : State) : exec .subb s = transformState subBytes s := rfl

theorem exec_isubb (s : State) : exec .isubb s = transformState invSubBytes s := rfl

theorem exec_shrow (s : State) : exec .shrow s = transformState shiftRows s := rfl

theorem exec_ishrow (s : State) : exec .ishrow s = transformState invShiftRows s := rfl

theorem exec_mixc (s : State) : exec .mixc s = transformState mixColumns s := rfl

theorem exec_imixc (s : State) : exec .imixc s = transformState invMixColumns s := rfl

section TransformState

variable {s : State} (hf : s.fatal = false) (f : Mat → Mat)

include hf

theorem transformState_of_sv (hv : s.sv = true) :
    transformState f s = .next { s with smat := f s.smat, err := 0 } := by
  rw [transformState, command_effect hf (by simp [hv])]
  rfl

/-- R173: without a state the command raises SequenceError. -/
theorem transformState_of_not_sv (hv : s.sv = false) : transformState f s = .next { s with err := 4 } :=
  command_raises_of_not_isFatal hf (e := .sequence) (by simp [hv]) rfl _

end TransformState

/-! ## The obligations of spec/43_state_transform.md -/

/-- Settles O27: the matrix is that of the block in IBUF, and byte `4c + r` of the input is that byte of the block. -/
theorem ldstLoadsTheState : Obligations.LdstLoadsTheState := by
  refine ⟨fun s m hs hm hl => ?_, fun s hf hi => ?_, decode_encode (i := .ldst) rfl⟩
  · refine ⟨_, exec_ldst_of_input hs.not_fatal hm hl, fun r c => ?_⟩
    rw [get_bytesToState]
    exact getElem?_eq_blockOfBytes_byte hl ⟨4 * c.val + r.val, by omega⟩
  · have hn : notOneBlock s = true := notOneBlock_eq_true.2 hi
    exact (exec_ldst s).trans (command_raises_of_not_isFatal hf (e := .format) (by simp [hn]) rfl _)

/-- Settles O28: there is room for the 16 bytes of S, and byte `4c + r` of them is `S[r][c]`. -/
theorem ststDeliversTheState : Obligations.StstDeliversTheState := by
  refine ⟨fun s hs hv => ?_, fun s hf hv => ?_, decode_encode (i := .stst) rfl⟩
  · refine ⟨blockToBytes (stateToBytes s.smat), ?_, blockToBytes_length _, fun r c => ?_⟩
    · rw [exec_stst, command_effect hs.not_fatal (by simp [hv]), deliver_block hs.inv]
    · rw [← byte_stateToBytes_four_mul_add]
      exact blockToBytes_getElem _ ⟨4 * c.val + r.val, by omega⟩
  · exact (exec_stst s).trans (command_raises_of_not_isFatal hf (e := .sequence) (by simp [hv]) rfl _)

/-- Settles O29: group `c` of the round key is `W[4 idx + c]`. -/
theorem arkAddsTheRoundKey : Obligations.ArkAddsTheRoundKey := by
  refine ⟨fun s idx hf hv hr h => ?_, fun s idx hf hor h => ?_,
    fun idx h => decode_encode (i := .ark idx) (decide_eq_true h),
    fun s z idx hf hbad => hostIssue_formatI_of_not_admitted (mk := .ark) (top := maxRound) (by simp [opcodeMap]) hf hbad⟩
  · refine ⟨_, exec_ark_of_le hf hv hr h, fun r c => ?_⟩
    rw [get_addRoundKey, roundKeyOperand_word s h]
  · have hmissing : (s.sv && s.rkv) = false := Bool.and_eq_false_iff.2 hor
    exact (exec_ark s idx).trans
      (command_raises_of_not_isFatal hf (e := .sequence) (by simp [hmissing, badRound_eq_false.2 h]) rfl _)

/-- Settles O34: bytes move between places that correspond one to one, or each changes by an invertible map. -/
theorem bytewiseTransformsAreInverse : Obligations.BytewiseTransformsAreInverse :=
  ⟨stateToBytes_bytesToState, bytesToState_stateToBytes, addRoundKey_addRoundKey,
    fun x => ⟨invSubBytes_subBytes x, subBytes_invSubBytes x⟩,
    fun x => ⟨invShiftRows_shiftRows x, shiftRows_invShiftRows x⟩⟩

/-- Settles O35: the two polynomials that columns are multiplied by have the product 1. -/
theorem invMixColumnsUndoesMixColumns : Obligations.InvMixColumnsUndoesMixColumns :=
  fun x => ⟨invMixColumns_mixColumns x, mixColumns_invMixColumns x⟩

/-- Settles O36: three times is the inverse, for shiftRows and for mixColumns, so that the fourth time undoes it. -/
theorem transformOrders : Obligations.TransformOrders := by
  refine fun x => ⟨?_, shiftRows_shiftRows_shiftRows x, ?_, shiftRows_subBytes x⟩
  · rw [shiftRows_shiftRows_shiftRows, invShiftRows_shiftRows]
  · rw [mixColumns_mixColumns_mixColumns, invMixColumns_mixColumns]

/-- Settles O30: both are transforms of S by a table lookup in each byte. -/
theorem subbAndIsubbSubstituteEveryByte : Obligations.SubbAndIsubbSubstituteEveryByte := by
  refine ⟨fun s hf hv => ⟨?_, ?_⟩, fun s hf hv => ⟨?_, ?_⟩, decode_encode (i := .subb) rfl, decode_encode (i := .isubb) rfl⟩
  · exact ⟨_, (exec_subb s).trans (transformState_of_sv hf _ hv), get_subBytes _⟩
  · exact ⟨_, (exec_isubb s).trans (transformState_of_sv hf _ hv), get_invSubBytes _⟩
  · exact (exec_subb s).trans (transformState_of_not_sv hf _ hv)
  · exact (exec_isubb s).trans (transformState_of_not_sv hf _ hv)

/-- Settles O31: the sum of two column numbers is reduced modulo 4, and so is the difference. -/
theorem shrowAndIshrowRotateTheRows : Obligations.ShrowAndIshrowRotateTheRows := by
  refine ⟨fun s hf hv => ⟨?_, ?_⟩, fun s hf hv => ⟨?_, ?_⟩, decode_encode (i := .shrow) rfl,
    decode_encode (i := .ishrow) rfl⟩
  · exact ⟨_, (exec_shrow s).trans (transformState_of_sv hf _ hv), get_shiftRows _⟩
  · exact ⟨_, (exec_ishrow s).trans (transformState_of_sv hf _ hv), get_invShiftRows_mod_four _⟩
  · exact (exec_shrow s).trans (transformState_of_not_sv hf _ hv)
  · exact (exec_ishrow s).trans (transformState_of_not_sv hf _ hv)

/-- Settles O32: each column is mixed by itself, and its four bytes are those of `mixColumn`. -/
theorem mixcMixesEveryColumn : Obligations.MixcMixesEveryColumn := by
  refine ⟨fun s hf hv => ?_, fun s hf hv => ?_, decode_encode (i := .mixc) rfl⟩
  · refine ⟨_, (exec_mixc s).trans (transformState_of_sv hf _ hv), ?_⟩
    rintro c _ _ _ _ rfl rfl rfl rfl
    simp only [Mat.get, col_mixColumns]
    exact ⟨rfl, rfl, rfl, rfl⟩
  · exact (exec_mixc s).trans (transformState_of_not_sv hf _ hv)

/-- Settles O33: each column is mixed back by itself, and its four bytes are those of `invMixColumn`. -/
theorem imixcMixesEveryColumnBack : Obligations.ImixcMixesEveryColumnBack := by
  refine ⟨fun s hf hv => ?_, fun s hf hv => ?_, decode_encode (i := .imixc) rfl⟩
  · refine ⟨_, (exec_imixc s).trans (transformState_of_sv hf _ hv), ?_⟩
    rintro c _ _ _ _ rfl rfl rfl rfl
    simp only [Mat.get, col_invMixColumns]
    exact ⟨rfl, rfl, rfl, rfl⟩
  · exact (exec_imixc s).trans (transformState_of_not_sv hf _ hv)

end Machine
end Sys2Proof

/-! SUPPORT. The rules of spec/44_block_cipher.md: one round of decryption undoes one round of encryption, and so do all of
them in the reversed order, and what the two block commands do. -/

namespace Sys2Proof.Machine

/-! ## Decryption undoes encryption (R130, R131, R134) -/

/-- Steps taken in order are undone by their counterparts in the reversed order, seen through the map `g`, if each step is
undone so by its own counterpart. -/
theorem foldl_reverse_foldl {α β ι : Type} {forth : α → ι → α} {back : β → ι → β} {g : α → β}
    (h : ∀ x r, back (g (forth x r)) r = g x) (rs : List ι) (x : α) :
    rs.reverse.foldl back (g (rs.foldl forth x)) = g x := by
  induction rs generalizing x with
  | nil => rfl
  | cons r rs ih =>
    calc (r :: rs).reverse.foldl back (g ((r :: rs).foldl forth x))
        = back (rs.reverse.foldl back (g (rs.foldl forth (forth x r)))) r := by simp
      _ = back (g (forth x r)) r := by rw [ih]
      _ = g x := h x r

/-- R131: "the exact mirror". A round of decryption starts from a state whose bytes are still substituted and shifted by the
round of encryption after the one it undoes. -/
theorem decryptRound_encryptRound (w : Schedule) (x : Mat) (r : Fin 11) :
    decryptRound w ((shiftRows ∘ subBytes) (encryptRound w x r)) r = (shiftRows ∘ subBytes) x := by
  simp only [Function.comp_apply, decryptRound, encryptRound, invShiftRows_shiftRows, invSubBytes_subBytes,
    addRoundKey_addRoundKey, invMixColumns_mixColumns]

theorem encryptRound_decryptRound (w : Schedule) (x : Mat) (r : Fin 11) :
    encryptRound w ((invSubBytes ∘ invShiftRows) (decryptRound w x r)) r = (invSubBytes ∘ invShiftRows) x := by
  simp only [Function.comp_apply, decryptRound, encryptRound, subBytes_invSubBytes, shiftRows_invShiftRows,
    mixColumns_invMixColumns, addRoundKey_addRoundKey]

theorem decryptBlock_encryptBlock (b : Block) (w : Schedule) : decryptBlock (encryptBlock b w) w = b := by
  have rounds := foldl_reverse_foldl (decryptRound_encryptRound w) [1, 2, 3, 4, 5, 6, 7, 8, 9]
    (addRoundKey (bytesToState b) (roundKey w 0))
  simp only [List.reverse_cons, List.reverse_nil, List.nil_append, List.cons_append, Function.comp_apply] at rounds
  simp only [decryptBlock, encryptBlock, bytesToState_stateToBytes, addRoundKey_addRoundKey, rounds,
    invShiftRows_shiftRows, invSubBytes_subBytes, stateToBytes_bytesToState]

theorem encryptBlock_decryptBlock (b : Block) (w : Schedule) : encryptBlock (decryptBlock b w) w = b := by
  have rounds := foldl_reverse_foldl (encryptRound_decryptRound w) [9, 8, 7, 6, 5, 4, 3, 2, 1]
    (addRoundKey (bytesToState b) (roundKey w 10))
  simp only [List.reverse_cons, List.reverse_nil, List.nil_append, List.cons_append, Function.comp_apply] at rounds
  simp only [decryptBlock, encryptBlock, bytesToState_stateToBytes, addRoundKey_addRoundKey, rounds,
    subBytes_invSubBytes, shiftRows_invShiftRows, stateToBytes_bytesToState]

/-! ## The commands ENCB and DECB (R132, R133) -/

theorem exec_encb (s : State) : exec .encb s = blockCommand encryptBlock s := rfl

theorem exec_decb (s : State) : exec .decb s = blockCommand decryptBlock s := rfl

/-- R132, R133: the two commands differ only in the function that takes the block. -/
theorem exists_blockCommand {i : Instr} (hi : i ∈ [Instr.encb, .decb]) :
    ∃ f, ∀ s, exec i s = blockCommand f s := by
  rcases List.mem_pair.1 hi with rfl | rfl
  · exact ⟨encryptBlock, exec_encb⟩
  · exact ⟨decryptBlock, exec_decb⟩

section BlockCommand

variable {s : State} (f : Block → Schedule → Block)

/-- R132, R133: with round keys and a block in IBUF the result is delivered and S is discarded. -/
theorem blockCommand_of_input {m : List Byte} (hs : s.Running) (hr : s.rkv = true) (hm : s.Input m) (hl : m.length = 16) :
    blockCommand f s = .next ((discardState s).withOutput (blockToBytes (f (blockOfBytes m) s.w))) := by
  have hi := ilen_eq_of_input hm hl
  rw [blockCommand, command_effect hs.not_fatal (by simp [hr, hi]), withBlock_eq hm hi,
    deliver_block (inv_discardState hs.inv)]

/-- R173: without round keys the command raises SequenceError, whatever ILEN is. -/
theorem blockCommand_of_not_rkv (hf : s.fatal = false) (hr : s.rkv = false) :
    blockCommand f s = .next { s with err := 4 } :=
  command_raises_of_not_isFatal hf (e := .sequence) (by simp [hr]) rfl _

/-- R174, R178: with round keys an input that is not one block raises FormatError. -/
theorem blockCommand_of_ilen_ne (hf : s.fatal = false) (hr : s.rkv = true) (hi : s.ilen ≠ 16) :
    blockCommand f s = .next { s with err := 2 } := by
  have hn : notOneBlock s = true := notOneBlock_eq_true.2 hi
  exact command_raises_of_not_isFatal hf (e := .format) (by simp [hr, hn]) rfl _

end BlockCommand

/-- R15: with round keys W is a function of KEY. -/
theorem w_eq_of_key_eq {s u : State} (hs : s.Inv) (hu : u.Inv) (hr : s.rkv = true) (hv : u.rkv = true)
    (hk : s.key = u.key) : s.w = u.w := by
  obtain ⟨-, hsw⟩ := hs.rkv_schedule hr
  obtain ⟨-, huw⟩ := hu.rkv_schedule hv
  rw [hsw, huw, hk]

/-! ## The obligations of spec/44_block_cipher.md -/

/-- Settles O37: RKV is checked before ILEN, and the free value in S is the one that the discarding draws. -/
theorem blockCommandsDeliverTheBlock : Obligations.BlockCommandsDeliverTheBlock := by
  refine ⟨fun s m hs hr hm hl => ?_, fun s i hi hf => ?_, decode_encode (i := .encb) rfl, decode_encode (i := .decb) rfl⟩
  · exact ⟨(discardState s).smat, (discardState s).smat, (discardState s).draws, (discardState s).draws,
      (exec_encb s).trans (blockCommand_of_input _ hs hr hm hl), (exec_decb s).trans (blockCommand_of_input _ hs hr hm hl)⟩
  · obtain ⟨f, hexec⟩ := exists_blockCommand hi
    rw [hexec]
    exact ⟨blockCommand_of_not_rkv f hf, blockCommand_of_ilen_ne f hf⟩

/-- Settles O38: the rounds undo each other from the innermost outwards, in both directions. -/
theorem decryptBlockInvertsEncryptBlock : Obligations.DecryptBlockInvertsEncryptBlock :=
  fun b w => ⟨decryptBlock_encryptBlock b w, encryptBlock_decryptBlock b w⟩

/-- Settles O39: both states deliver a function of the input and W, and in a sound state W is the schedule of KEY. -/
theorem blockResultDependsOnInputAndKey : Obligations.BlockResultDependsOnInputAndKey := by
  intro s u m i hi hs hu hr hv hk hm hm' hl
  obtain ⟨f, hexec⟩ := exists_blockCommand hi
  refine ⟨_, _, (hexec s).trans (blockCommand_of_input f hs hr hm hl),
    (hexec u).trans (blockCommand_of_input f hu hv hm' hl), ?_, ?_⟩
  · rw [withOutput_obuf, withOutput_obuf, w_eq_of_key_eq hs.inv hu.inv hr hv hk]
  · simp only [withOutput_olen, blockToBytes_length]

end Sys2Proof.Machine

/-! SUPPORT. The rules of spec/45_padding_ecb.md: padding and what undoes it, the blocks of an ECB message one by one, what
the four commands do, and the run of three transactions that encrypts or decrypts a message. -/

namespace Sys2Proof.Machine

/-! ## Padding (R140, R141) -/

theorem pad_length_eq_add (m : List Byte) : (pad m).length = m.length + padLen m.length := by
  rw [pad, List.length_append, List.length_replicate]

theorem take_length_pad (m : List Byte) : (pad m).take m.length = m := List.take_left

/-- R140: every byte behind the message is the number of such bytes. -/
theorem getElem?_pad {m : List Byte} {k : Nat} (hk : m.length ≤ k) (hlt : k < (pad m).length) :
    (pad m)[k]? = some (BitVec.ofNat 8 (padLen m.length)) := by
  rw [pad_length_eq_add] at hlt
  rw [pad, List.getElem?_append_right hk, List.getElem?_replicate, if_pos (by omega)]

/-- R140: there is at least one padding byte, so the last byte is one. -/
theorem getLast?_pad (m : List Byte) : (pad m).getLast? = some (BitVec.ofNat 8 (padLen m.length)) := by
  have hpos := (padLen_bounds m.length).1
  rw [List.getLast?_eq_getElem?, getElem?_pad] <;> rw [pad_length_eq_add] <;> omega

/-- R141: the last byte is the count of bytes to strip. -/
theorem unpad_of_le {d : List Byte} {count : Byte} (h : d.getLast? = some count) (hc : count.toNat ≤ d.length) :
    unpad d = some (d.take (d.length - count.toNat)) := by
  simp only [unpad, h, if_pos hc]

/-- R141: "`unpad(pad(m)) == m`". -/
theorem unpad_pad (m : List Byte) : unpad (pad m) = some m := by
  have hcount : (BitVec.ofNat 8 (padLen m.length)).toNat = padLen m.length :=
    Nat.mod_eq_of_lt ((padLen_bounds m.length).2.trans_lt (by decide))
  have hlen := pad_length_eq_add m
  rw [unpad_of_le (getLast?_pad m) (by omega), hcount, hlen, Nat.add_sub_cancel, take_length_pad]

/-! ## Blocks of a message (R45, R142) -/

/-- R45: block `b` of a message is its 16 bytes from index `16b` on. -/
theorem splitBlocks_getElem {n b : Nat} (hb : b < n) (bs : List Byte) :
    (splitBlocks n bs)[b]'(by simpa using hb) = blockOfBytes ((bs.drop (16 * b)).take 16) := by
  induction n generalizing b bs with
  | zero => omega
  | succ n ih =>
    cases b with
    | zero => rfl
    | succ b =>
      simp only [splitBlocks, List.getElem_cons_succ, ih (Nat.lt_of_succ_lt_succ hb), List.drop_drop]
      rw [Nat.mul_succ, Nat.add_comm]

theorem take_drop_joinBlocks {bs : List Block} {b : Nat} (hb : b < bs.length) :
    ((joinBlocks bs).drop (16 * b)).take 16 = blockToBytes bs[b] := by
  induction bs generalizing b with
  | nil => simp at hb
  | cons x xs ih =>
    cases b with
    | zero => exact List.take_left (l₁ := blockToBytes x)
    | succ b =>
      have htail : (joinBlocks (x :: xs)).drop (16 * (b + 1)) = (joinBlocks xs).drop (16 * b) := by
        simp [Nat.mul_succ, List.drop_append]
      rw [htail, ih (Nat.lt_of_succ_lt_succ hb), List.getElem_cons_succ]

theorem splitBlocks_joinBlocks (bs : List Block) : splitBlocks bs.length (joinBlocks bs) = bs := by
  refine List.ext_getElem (splitBlocks_length _ _) fun b hb hb' => ?_
  rw [splitBlocks_getElem hb', take_drop_joinBlocks hb', blockOfBytes_blockToBytes]

theorem joinBlocks_splitBlocks {n : Nat} {bs : List Byte} (h : bs.length = 16 * n) :
    joinBlocks (splitBlocks n bs) = bs := by
  induction n generalizing bs with
  | zero => exact (List.eq_nil_of_length_eq_zero h).symm
  | succ n ih =>
    rw [splitBlocks, joinBlocks_cons, blockToBytes_blockOfBytes (by simp; omega), ih (by simp; omega),
      List.take_append_drop]

/-! ## ECB mode (R142, R143) -/

theorem ecbEncode_length_eq_pad (m : List Byte) (w : Schedule) : (ecbEncode m w).length = (pad m).length := by
  rw [ecbEncode_length, pad_length]

/-- R142: "encrypt each block independently". -/
theorem take_drop_ecbEncode {m : List Byte} {b : Nat} (hb : 16 * b < (pad m).length) (w : Schedule) :
    ((ecbEncode m w).drop (16 * b)).take 16 =
      blockToBytes (encryptBlock (blockOfBytes (((pad m).drop (16 * b)).take 16)) w) := by
  have hn : b < (pad m).length / 16 := by rw [pad_length] at hb ⊢; omega
  rw [ecbEncode, take_drop_joinBlocks (by simpa using hn), List.getElem_map, splitBlocks_getElem hn]

/-- A block that lies within the message is the same block of the padded message. -/
theorem take_drop_pad {m : List Byte} {k n : Nat} (h : k + n ≤ m.length) :
    ((pad m).drop k).take n = (m.drop k).take n := by
  rw [pad, List.drop_append_of_le_length (by omega), List.take_append_of_le_length (by rw [List.length_drop]; omega)]

/-- R149: block by block, decryption gives the padded message back. -/
theorem ecbDecryptBlocks_ecbEncode (m : List Byte) (w : Schedule) : ecbDecryptBlocks (ecbEncode m w) w = pad m := by
  have hblocks : (pad m).length = 16 * ((pad m).length / 16) := by rw [pad_length]; omega
  have hsplit := splitBlocks_joinBlocks ((splitBlocks ((pad m).length / 16) (pad m)).map fun b => encryptBlock b w)
  rw [List.length_map, splitBlocks_length] at hsplit
  rw [ecbDecryptBlocks, ecbEncode_length_eq_pad, ecbEncode, hsplit, List.map_map]
  simp only [Function.comp_def, decryptBlock_encryptBlock, List.map_id', joinBlocks_splitBlocks hblocks]

/-! ## The commands PAD, UNPAD, ECBE and ECBD (R144 to R147) -/

theorem exec_pad (s : State) : exec .pad s =
    command s [(paddedTooLong s, .capacity)] (withMessage fun m t => deliver (pad m) t) := rfl

theorem exec_unpad (s : State) : exec .unpad s =
    command s [(messageLen s == 0, .format)] (withMessage fun d t => deliverUnpadded d t) := rfl

theorem exec_ecbe (s : State) : exec .ecbe s =
    command s [(!s.kv, .sequence), (paddedTooLong s, .capacity)]
      (withMessage fun m t =>
        deliver (ecbEncode m (expandKey t).w) (discardState (expandKey t))) := rfl

theorem exec_ecbd (s : State) : exec .ecbd s =
    command s [(!s.kv, .sequence), (messageLen s % 16 != 0, .format), (messageLen s == 0, .format)]
      (withMessage fun c t =>
        deliverUnpadded (ecbDecryptBlocks c (expandKey t).w) (discardState (expandKey t))) := rfl

/-- R144: the padded length "exceeds CAP exactly when `L == CAP`", CAP being a multiple of 16. -/
theorem paddedTooLong_eq_true_iff {s : State} (hs : s.Inv) : paddedTooLong s = true ↔ s.ilen.toNat = s.cap := by
  obtain ⟨hmul, -, -⟩ := hs.cap_admissible
  have hle := hs.ilen_le_cap
  rw [paddedTooLong_eq_true, padLen]
  omega

section Input

variable {s : State} {m : List Byte} (hs : s.Running) (hm : s.Input m)

include hs hm

theorem paddedTooLong_of_ne (hne : m.length ≠ s.cap) : paddedTooLong s = false := by
  refine Bool.eq_false_iff.2 fun h => hne ?_
  rw [input_length hm, (paddedTooLong_eq_true_iff hs.inv).1 h]

theorem pad_length_le (hne : m.length ≠ s.cap) : (pad m).length ≤ s.cap := by
  rw [pad_length_eq_add, input_length hm]
  exact paddedTooLong_eq_false.1 (paddedTooLong_of_ne hs hm hne)

theorem exec_pad_of_ne (hne : m.length ≠ s.cap) : exec .pad s = .next (s.withOutput (pad m)) := by
  rw [exec_pad, command_effect hs.not_fatal (by simp [paddedTooLong_of_ne hs hm hne]), withMessage_eq hm,
    deliver_sound hs.inv (pad_length_le hs hm hne)]

/-- R145: what is unpadded from an input that is not empty is delivered; where R152 leaves that open, some output is. -/
theorem exec_unpad_of_ne_nil (hne : m ≠ []) :
    ∃ (v : List Byte) (n : Nat), v.length ≤ s.cap ∧ exec .unpad s = .next ({ s with draws := n }.withOutput v) ∧
      ∀ x, unpad m = some x → v = x ∧ n = s.draws := by
  have hlen : m.length = messageLen s := input_length hm
  obtain ⟨v, n, hv, hd, hu⟩ := deliverUnpadded_sound hs.inv (hlen.trans_le hs.inv.ilen_le_cap)
  refine ⟨v, n, hv, ?_, hu⟩
  rw [exec_unpad, command_effect hs.not_fatal (by simp [← hlen, hne]), withMessage_eq hm, hd]

/-- R146: with a key and a message shorter than CAP the ciphertext is delivered. -/
theorem exec_ecbe_of_ne (hk : s.kv = true) (hne : m.length ≠ s.cap) :
    exec .ecbe s = .next ((discardState (expandKey s)).withOutput (ecbEncode m (keyExpand s.key))) := by
  have hfit : (ecbEncode m (keyExpand s.key)).length ≤ (discardState (expandKey s)).cap := by
    simpa [ecbEncode_length_eq_pad] using pad_length_le hs hm hne
  rw [exec_ecbe, command_effect hs.not_fatal (by simp [hk, paddedTooLong_of_ne hs hm hne]), withMessage_eq hm,
    expandKey_w, deliver_sound (inv_discardState (inv_expandKey hs.inv hk)) hfit]

/-- R147: with a key and an input of whole blocks what is unpadded from the decrypted blocks is delivered; where R152 leaves
that open, some output is. -/
theorem exec_ecbd_of_blocks (hk : s.kv = true) (hmod : m.length % 16 = 0) (hne : m ≠ []) :
    ∃ (v : List Byte) (n : Nat), v.length ≤ s.cap ∧
      exec .ecbd s = .next ({ discardState (expandKey s) with draws := n }.withOutput v) ∧
      ∀ x, unpad (ecbDecryptBlocks m (keyExpand s.key)) = some x → v = x := by
  have hlen : m.length = messageLen s := input_length hm
  have hfit : (ecbDecryptBlocks m (keyExpand s.key)).length ≤ (discardState (expandKey s)).cap := by
    rw [ecbDecryptBlocks_length, hlen, discardState_cap, expandKey_cap]
    exact (Nat.mul_div_le _ _).trans hs.inv.ilen_le_cap
  obtain ⟨v, n, hv, hd, hu⟩ := deliverUnpadded_sound (inv_discardState (inv_expandKey hs.inv hk)) hfit
  refine ⟨v, n, by simpa using hv, ?_, fun x hx => (hu x hx).1⟩
  rw [exec_ecbd, command_effect hs.not_fatal (by simp [hk, ← hlen, hmod, hne]), withMessage_eq hm, expandKey_w, hd]

end Input

/-! ## The run PUT, command, GET (R149, R209) -/

/-- R48: `s` with the message `m` in IBUF, when HOST is about to read the output. -/
def State.presented (s : State) (m : List Byte) : State :=
  { s with ibuf := Memory.ofBytes m, ilen := BitVec.ofNat 32 m.length, host := [.getOutput], reply := .none }

section Presented

variable {s : State} {m : List Byte} (hs : s.Running) (hm : m.length ≤ s.cap)

include hs hm

theorem running_presented : (s.presented m).Running :=
  ⟨inv_host (inv_putInput hs.inv hm) _ _, hs.not_fatal⟩

theorem input_presented : (s.presented m).Input m :=
  input_ofBytes rfl (toNat_length hs.inv.cap_admissible hm)

end Presented

/-- R50: HostGetOutput reads back the output that was delivered. -/
theorem hostGetOutput_withOutput {s : State} {v : List Byte} (hc : Config.AdmissibleCap s.cap) (hv : v.length ≤ s.cap) :
    hostGetOutput (s.withOutput v) = .next { s.withOutput v with reply := .bytes v } := by
  have hlen : (s.withOutput v).olen.toNat = v.length := toNat_length hc hv
  refine hostGetOutput_of_memRead ?_
  rw [memRead_obuf_whole, hlen, withOutput_obuf]
  exact readSeq_eq_of_getElem fun k _ => by rw [Memory.read1_ofBytes, Nat.zero_add]

theorem step_with_host_cons (s : State) (x : Transaction) (rest : List Transaction) :
    step { s with host := x :: rest } = perform x { s with host := rest, reply := .none } := rfl

theorem run_succ {k : Nat} {s t : State} (h : step s = .next t) : core.run (k + 1) s = core.run k t := by
  have hcore : core.step s = .next t := h
  simp only [Host.Core.run, hcore]

/-- The run in which HOST puts `m`, issues `cw` and gets the output leads from `s` to `u` and returns `v`. The states are
sound, and the key is kept. -/
structure Exchange (s : State) (m : List Byte) (cw : Word32) (v : List Byte) (u : State) : Prop where
  run : core.run 3 { s with host := [.put m, .issue cw, .getOutput] } = .next u
  reply : u.reply = .bytes v
  good : u.Good
  running : u.Running
  cap : u.cap = s.cap
  key : u.key = s.key
  kv : u.kv = s.kv

/-- A command that delivers `v` for the message `m` makes such a run. -/
theorem exchange_of_exec {s t : State} {m v : List Byte} {cw : Word32} {i : Instr} (hs : s.Running)
    (hm : m.length ≤ s.cap) (hd : decode cw = .ok i) (hi : i ≠ .ldkey)
    (hx : exec i (s.presented m) = .next (t.withOutput v)) (hv : v.length ≤ s.cap) :
    Exchange s m cw v { t.withOutput v with host := [], reply := .bytes v } := by
  have hrun := running_presented hs hm
  have hex := executes_of_exec hx
  obtain ⟨hin, hcap⟩ := hex.sameInput
  obtain ⟨hkey, hkv⟩ := hex.key_kv_eq hi
  have hfatal : t.fatal = false := (hex.fatal_eq hi).trans hs.not_fatal
  have hinv := hex.inv hrun.inv
  refine ⟨?_, rfl, ⟨hfatal, rfl⟩, ⟨inv_host hinv [] (.bytes v), hfatal⟩, hcap, hkey, hkv⟩
  have hput : step { s with host := [.put m, .issue cw, .getOutput] } =
      .next { s.presented m with host := [.issue cw, .getOutput] } :=
    (step_with_host_cons s (.put m) [.issue cw, .getOutput]).trans (hostPutInput_of_le hs.inv.ibuf_holds.wf hm)
  have hissue : step { s.presented m with host := [.issue cw, .getOutput] } = .next (t.withOutput v) :=
    (step_with_host_cons (s.presented m) (.issue cw) [.getOutput]).trans
      ((hostIssue_of_decode hrun.not_fatal hd).trans hx)
  have hget : step (t.withOutput v) = .next { t.withOutput v with host := [], reply := .bytes v } :=
    (step_of_host_cons hin.host).trans
      (hostGetOutput_withOutput (s := t.taken []) hinv.cap_admissible (hv.trans hcap.ge))
  rw [run_succ hput, run_succ hissue, run_succ hget]
  rfl

/-- R149: the run that encrypts. -/
theorem exists_exchange_ecbe {s : State} {m : List Byte} (hs : s.Running) (hk : s.kv = true) (hm : m.length < s.cap) :
    ∃ u, Exchange s m 0x62000000 (ecbEncode m (keyExpand s.key)) u := by
  have hrun := running_presented hs hm.le
  have hin := input_presented hs hm.le
  have hfit : (ecbEncode m (keyExpand s.key)).length ≤ s.cap :=
    (ecbEncode_length_eq_pad m _).trans_le (pad_length_le (s := s.presented m) hrun hin hm.ne)
  exact ⟨_, exchange_of_exec hs hm.le (decode_encode (i := .ecbe) rfl) (by simp) (exec_ecbe_of_ne hrun hin hk hm.ne) hfit⟩

/-- R149: the run that decrypts, for an input that decrypts to a padded message. -/
theorem exists_exchange_ecbd {s : State} {c m : List Byte} (hs : s.Running) (hk : s.kv = true) (hc : c.length ≤ s.cap)
    (hmod : c.length % 16 = 0) (hne : c ≠ []) (hu : unpad (ecbDecryptBlocks c (keyExpand s.key)) = some m) :
    ∃ u, Exchange s c 0x63000000 m u := by
  obtain ⟨v, n, hv, hx, huniq⟩ :=
    exec_ecbd_of_blocks (running_presented hs hc) (input_presented hs hc) hk hmod hne
  obtain rfl := huniq m hu
  exact ⟨_, exchange_of_exec hs hc (decode_encode (i := .ecbd) rfl) (by simp) hx hv⟩

/-! ## The obligations of spec/45_padding_ecb.md -/

/-- Settles O40: there is at least one padding byte, so the last byte is the count that unpadding strips. -/
theorem padLaw : Obligations.PadLaw := fun m =>
  ⟨(padLen_bounds m.length).1, (padLen_bounds m.length).2, pad_length_eq_add m, pad_length m, take_length_pad m,
    fun _ => getElem?_pad, unpad_pad m⟩

/-- Settles O41: CAP is a multiple of 16, so the padded message fits unless the message fills the buffer. -/
theorem padDeliversThePaddedMessage : Obligations.PadDeliversThePaddedMessage := by
  refine ⟨fun s m => exec_pad_of_ne, fun s hs hcap => ?_, decode_encode (i := .pad) rfl⟩
  have hlong : paddedTooLong s = true := (paddedTooLong_eq_true_iff hs.inv).2 hcap
  exact (exec_pad s).trans (command_raises_of_not_isFatal hs.not_fatal (e := .capacity) (by simp [hlong]) rfl _)

/-- Settles O42: unpadding looks at the last byte only, and delivers something where that byte claims too much. -/
theorem unpadStripsTheCountOfTheLastByte : Obligations.UnpadStripsTheCountOfTheLastByte := by
  refine ⟨fun s m count hs hm hlast hle => ?_, fun s m count hs hm hlast hlt => ?_, fun s hf hi => ?_,
    decode_encode (i := .unpad) rfl⟩
  · have hne : m ≠ [] := by rintro rfl; cases hlast
    obtain ⟨v, n, -, hx, huniq⟩ := exec_unpad_of_ne_nil hs hm hne
    obtain ⟨rfl, rfl⟩ := huniq _ (unpad_of_le hlast hle)
    exact hx
  · have hne : m ≠ [] := by rintro rfl; cases hlast
    obtain ⟨v, n, hv, hx, -⟩ := exec_unpad_of_ne_nil hs hm hne
    exact ⟨v, n, hv, hx⟩
  · have hempty : messageLen s = 0 := by rw [messageLen, hi]; rfl
    exact (exec_unpad s).trans (command_raises_of_not_isFatal hf (e := .format) (by simp [hempty]) rfl _)

/-- Settles O43: KV is checked before the length, and the free value in S is the one that the discarding draws. -/
theorem ecbeDeliversTheCiphertext : Obligations.EcbeDeliversTheCiphertext := by
  refine ⟨fun s m hs hk hm hne => ?_, fun s hf hk => ?_, fun s hs hk hcap => ?_, decode_encode (i := .ecbe) rfl⟩
  · exact ⟨_, (discardState (expandKey s)).smat, (discardState (expandKey s)).draws, exec_ecbe_of_ne hs hm hk hne, rfl,
      (ecbEncode_length_eq_pad m _).trans (pad_length_eq_add m)⟩
  · exact (exec_ecbe s).trans (command_raises_of_not_isFatal hf (e := .sequence) (by simp [hk]) rfl _)
  · have hlong : paddedTooLong s = true := (paddedTooLong_eq_true_iff hs.inv).2 hcap
    exact (exec_ecbe s).trans
      (command_raises_of_not_isFatal hs.not_fatal (e := .capacity) (by simp [hk, hlong]) rfl _)

/-- Settles O44: both cases deliver; the count of the last byte decides only whether the output is known. -/
theorem ecbdDeliversThePlaintext : Obligations.EcbdDeliversThePlaintext := by
  refine ⟨fun s c d count hs hk hc hmod hd hlast hle => ?_, fun s c count hs hk hc hmod hlast hlt => ?_,
    fun s hf hk => ?_, fun s hf hk hbad => ?_, decode_encode (i := .ecbd) rfl⟩
  · subst hd
    have hne : c ≠ [] := by rintro rfl; cases hlast
    have hlen : (ecbDecryptBlocks c (keyExpand s.key)).length = c.length := by
      rw [ecbDecryptBlocks_length]; omega
    obtain ⟨v, n, -, hx, huniq⟩ := exec_ecbd_of_blocks hs hc hk hmod hne
    obtain rfl := huniq _ (unpad_of_le hlast (hle.trans hlen.ge))
    exact ⟨(discardState (expandKey s)).smat, n, hlen ▸ hx⟩
  · have hne : c ≠ [] := by rintro rfl; cases hlast
    obtain ⟨v, n, hv, hx, -⟩ := exec_ecbd_of_blocks hs hc hk hmod hne
    exact ⟨v, (discardState (expandKey s)).smat, n, hv, hx⟩
  · exact (exec_ecbd s).trans (command_raises_of_not_isFatal hf (e := .sequence) (by simp [hk]) rfl _)
  · have hlen : messageLen s % 16 ≠ 0 ∨ messageLen s = 0 := hbad.imp_right fun h => by rw [messageLen, h]; rfl
    refine (exec_ecbd s).trans (command_raises_of_not_isFatal hf (e := .format) ?_ rfl _)
    rcases hlen with h | h <;> simp [hk, h]

/-- Settles O45: a block of the ciphertext is a function of the same block of the padded message, and that one is a block of
the message where it lies within it. -/
theorem ecbBlocksAreEncryptedIndependently : Obligations.EcbBlocksAreEncryptedIndependently := by
  refine ⟨fun m w => (ecbEncode_length_eq_pad m w).trans (pad_length_eq_add m), fun m w b hb => take_drop_ecbEncode hb w,
    fun m n w b c hb hc heq => ?_⟩
  have hbm : 16 * b < (pad m).length := by rw [pad_length]; omega
  have hcn : 16 * c < (pad n).length := by rw [pad_length]; omega
  rw [take_drop_ecbEncode hbm, take_drop_ecbEncode hcn, take_drop_pad hb, take_drop_pad hc, heq]

/-- Settles O46: the ciphertext decrypts block by block to the padded message, which fits the buffers, and the key is the
same in both runs. -/
theorem decryptAfterEncryptReturnsTheMessage : Obligations.DecryptAfterEncryptReturnsTheMessage := by
  intro s m hs hk hm
  obtain ⟨t, ht⟩ := exists_exchange_ecbe hs hk hm
  have hlen := ecbEncode_length m (keyExpand s.key)
  have hfit : (ecbEncode m (keyExpand s.key)).length ≤ t.cap := by
    have := hs.inv.cap_admissible.1
    rw [hlen, ht.cap]; omega
  have hu : unpad (ecbDecryptBlocks (ecbEncode m (keyExpand s.key)) (keyExpand t.key)) = some m := by
    rw [ht.key, ecbDecryptBlocks_ecbEncode, unpad_pad]
  obtain ⟨u, hd⟩ := exists_exchange_ecbd ht.running (ht.kv.trans hk) hfit (by omega)
    (List.ne_nil_of_length_pos (by omega)) hu
  exact ⟨t, u, _, ht.run, ht.reply, ht.good, hd.run, hd.reply, hd.good⟩

end Sys2Proof.Machine

/-! SUPPORT. The rules of spec/46_system.md: NOP checks nothing and has the completion of a command as its whole effect, and
a word of format N with a bit of 23:0 set is no NOP. -/

namespace Sys2Proof.Machine

/-! ## The command NOP (R160) -/

theorem exec_nop (s : State) : exec .nop s = command s [] complete := rfl

/-! ## The obligations of spec/46_system.md -/

/-- Settles O16: NOP has no check that could raise, and opcode 0 has format N, which admits no other word. -/
theorem nopClearsErr : Obligations.NopClearsErr := by
  refine ⟨decode_encode (i := .nop) rfl, fun s hf => ?_, fun s hf => ?_, fun s cw hf hop hz => ?_⟩
  · exact (exec_nop s).trans (command_effect hf rfl complete)
  · exact (exec_nop s).trans (command_fatal hf [] complete)
  · exact hostIssue_of_not_admits hf (.formatN .nop) (by simp [opcodeMap, hop]) hz

end Sys2Proof.Machine

/-! SUPPORT. The rules of spec/60_exceptions.md: every command makes the checks of R178 in one and the same order, raises the
first that fails and otherwise completes, so that when each error is raised is read off that order. -/

namespace Sys2Proof.Machine

/-! ## The order of the checks (R178) -/

/-- R172: LDKEY finds an input that is not one block. -/
def configFails : Instr → State → Bool
  | .ldkey, s => notOneBlock s
  | _, _ => false

/-- R177: the padded message does not fit. -/
def capacityFails : Instr → State → Bool
  | .pad, s => paddedTooLong s
  | .ecbe, s => paddedTooLong s
  | _, _ => false

/-- R178: the checks of a command, the one that takes precedence first. -/
def checksInOrder (i : Instr) (s : State) : List (Bool × CommandError) :=
  [(!i.wellFormed, .illegalCommand), (sequenceFails i s, .sequence), (formatFails i s, .format), (configFails i s, .config),
    (capacityFails i s, .capacity)]

theorem CommandError.code_injective : Function.Injective CommandError.code := by
  intro e f
  cases e <;> cases f <;> simp [CommandError.code]

theorem firstRaised_cons_eq_some {fails : Bool} {e e' : CommandError} {rest : List (Bool × CommandError)} :
    firstRaised ((fails, e) :: rest) = some e' ↔ fails = true ∧ e = e' ∨ fails = false ∧ firstRaised rest = some e' := by
  cases fails <;> simp

/-- R170: of the checks of a command only the error that they raise matters. -/
theorem command_congr {s : State} {own checks : List (Bool × CommandError)} (h : firstRaised own = firstRaised checks)
    (effect : State → Result) : command s own effect = command s checks effect := by
  simp only [command, h]

theorem notOneBlock_eq_decide (s : State) : notOneBlock s = decide (s.ilen.toNat ≠ 16) := by
  rw [Bool.eq_iff_iff, notOneBlock_eq_true, decide_eq_true_iff, ne_eq, ne_eq, ← BitVec.toNat_inj]
  rfl

theorem badRound_eq_not_decide (idx : BitVec 4) : badRound idx = !decide (idx.toNat ≤ maxRound) := by
  rw [← decide_not, badRound]
  exact decide_eq_decide.2 Nat.not_le.symm

theorem badRcon_eq_not_decide (idx : BitVec 4) : badRcon idx = !decide (idx.toNat ≤ maxRcon) := by
  rw [← decide_not, badRcon]
  exact decide_eq_decide.2 Nat.not_le.symm

/-! ## Effects complete (R170 (5)) -/

/-- The outcome `r` of an effect on `s`, where it is a next state, has ERR = 0 and FATAL as in `s`. -/
def Completes (s : State) (r : Result) : Prop :=
  ∀ t, r = .next t → t.err = 0 ∧ t.fatal = s.fatal

theorem completes_complete (s : State) : Completes s (complete s) := by
  intro t h
  cases h
  exact ⟨rfl, rfl⟩

theorem DeliversDrawn.completes {s : State} {r : Result} (h : ∀ t, r = .next t → DeliversDrawn s t) : Completes s r :=
  fun t ht => ⟨(h t ht).err_eq, (h t ht).sameRegisters.fatal⟩

theorem completes_deliver (v : List Byte) (s : State) : Completes s (deliver v s) :=
  DeliversDrawn.completes fun _ h => (deliver_next h).drawn

theorem completes_deliverUnpadded (d : List Byte) (s : State) : Completes s (deliverUnpadded d s) :=
  DeliversDrawn.completes fun _ => deliverUnpadded_next

namespace Completes

variable {s : State}

/-- An update that keeps FATAL may come before. -/
theorem of_fatal_eq {u : State} {r : Result} (hu : u.fatal = s.fatal) (h : Completes u r) : Completes s r :=
  fun t ht => ⟨(h t ht).1, (h t ht).2.trans hu⟩

theorem withBytes {k : List Byte → State → Result} (h : ∀ bs, Completes s (k bs s)) (space : Space) (addr n : Nat) :
    Completes s (withBytes space addr n k s) := by
  intro t ht
  obtain ⟨bs, -, hk⟩ := withBytes_next ht
  exact h bs t hk

theorem withMessage {k : List Byte → State → Result} (h : ∀ bs, Completes s (k bs s)) :
    Completes s (withMessage k s) :=
  withBytes h .ibuf 0 (messageLen s)

theorem withBlock {k : Block → State → Result} (h : ∀ b, Completes s (k b s)) : Completes s (withBlock k s) :=
  withBytes (k := fun bs t => k (blockOfBytes bs) t) (fun bs => h (blockOfBytes bs)) .ibuf 0 16

end Completes

/-! ## How every command runs (R170) -/

/-- R170: the command makes the checks of R178 in their order, and its effect completes. -/
def Runs (i : Instr) (s : State) : Prop :=
  ∃ effect, Completes s (effect s) ∧ exec i s = command s (checksInOrder i s) effect

namespace Runs

variable {i : Instr} {s : State}

theorem of_command {own : List (Bool × CommandError)} {effect : State → Result} (hx : exec i s = command s own effect)
    (hown : firstRaised own = firstRaised (checksInOrder i s)) (hc : Completes s (effect s)) : Runs i s :=
  ⟨effect, hc, hx.trans (command_congr hown effect)⟩

/-- R122 to R127: the transforms need a state and nothing else. -/
theorem of_transformState {f : Mat → Mat} (hx : exec i s = transformState f s)
    (hown : firstRaised [(!s.sv, .sequence)] = firstRaised (checksInOrder i s)) : Runs i s :=
  .of_command hx hown (completes_complete { s with smat := f s.smat })

/-- R132, R133: ENCB and DECB need round keys and one block. -/
theorem of_blockCommand {f : Block → Schedule → Block} (hx : exec i s = blockCommand f s)
    (hown : firstRaised [(!s.rkv, .sequence), (notOneBlock s, .format)] = firstRaised (checksInOrder i s)) : Runs i s :=
  .of_command hx hown (.withBlock fun _ => .of_fatal_eq (discardState_fatal s) (completes_deliver _ _))

end Runs

/-- R178: the checks that each command makes are those of the order that concern it. -/
theorem runs (i : Instr) (s : State) : Runs i s := by
  cases i with
  | nop => exact .of_command (exec_nop s) rfl (completes_complete s)
  | gfdbl a => exact .of_command (exec_gfdbl s a) rfl (completes_deliver _ s)
  | gfmul a b => exact .of_command (exec_gfmul s a b) rfl (completes_deliver _ s)
  | sbox a => exact .of_command (exec_sbox s a) rfl (completes_deliver _ s)
  | isbox a => exact .of_command (exec_isbox s a) rfl (completes_deliver _ s)
  | rcon idx =>
    refine .of_command (exec_rcon s idx) ?_ (.withBytes (completes_deliver · s) .rcon idx.toNat 1)
    rw [badRcon_eq_not_decide]
    rfl
  | ldkey => exact .of_command (exec_ldkey s) rfl (.withBlock fun k => completes_complete { s with key := k, kv := true })
  | kexp => exact .of_command (exec_kexp s) rfl (completes_complete { s with w := keyExpand s.key, rkv := true })
  | rdrk idx =>
    refine .of_command (exec_rdrk s idx) ?_ (completes_deliver _ s)
    rw [badRound_eq_not_decide]
    rfl
  | ldst =>
    refine .of_command (exec_ldst s) ?_
      (.withBlock fun b => completes_complete { s with smat := bytesToState b, sv := true })
    rw [notOneBlock_eq_decide]
    rfl
  | stst => exact .of_command (exec_stst s) rfl (completes_deliver _ s)
  | ark idx =>
    refine .of_command (exec_ark s idx) ?_
      (completes_complete { s with smat := addRoundKey s.smat (roundKeyOperand idx s) })
    rw [badRound_eq_not_decide, Bool.not_and]
    rfl
  | subb => exact .of_transformState (exec_subb s) rfl
  | isubb => exact .of_transformState (exec_isubb s) rfl
  | shrow => exact .of_transformState (exec_shrow s) rfl
  | ishrow => exact .of_transformState (exec_ishrow s) rfl
  | mixc => exact .of_transformState (exec_mixc s) rfl
  | imixc => exact .of_transformState (exec_imixc s) rfl
  | encb => exact .of_blockCommand (exec_encb s) (by rw [notOneBlock_eq_decide]; rfl)
  | decb => exact .of_blockCommand (exec_decb s) (by rw [notOneBlock_eq_decide]; rfl)
  | pad => exact .of_command (exec_pad s) rfl (.withMessage fun m => completes_deliver (pad m) s)
  | unpad => exact .of_command (exec_unpad s) rfl (.withMessage (completes_deliverUnpadded · s))
  | ecbe =>
    exact .of_command (exec_ecbe s) rfl (.withMessage fun _ => .of_fatal_eq (expandKey_fatal s)
      (.of_fatal_eq (discardState_fatal _) (completes_deliver _ _)))
  | ecbd =>
    refine .of_command (exec_ecbd s) ?_ (.withMessage fun _ => .of_fatal_eq (expandKey_fatal s)
      (.of_fatal_eq (discardState_fatal _) (completes_deliverUnpadded _ _)))
    -- R178: the two lengths that raise FormatError are one check in the order.
    by_cases hmod : s.ilen.toNat % 16 = 0 <;>
      simp [checksInOrder, sequenceFails, formatFails, configFails, capacityFails, Instr.wellFormed, messageLen, hmod]

/-- R171: under FATAL a command does nothing. -/
theorem exec_of_fatal {s : State} (hf : s.fatal = true) (i : Instr) : exec i s = .next s := by
  obtain ⟨effect, -, hx⟩ := runs i s
  rw [hx, command_fatal hf]

section Running

variable {i : Instr} {s : State} (hf : s.fatal = false)

include hf

theorem exec_of_firstRaised {e : CommandError} (he : firstRaised (checksInOrder i s) = some e) :
    exec i s = .next (raise e s) := by
  obtain ⟨effect, -, hx⟩ := runs i s
  rw [hx, command_raises hf he]

/-- R170: with FATAL = 0 a command raises the error of the first check that fails, or it completes. -/
theorem exec_raises_or_completes {t : State} (h : exec i s = .next t) :
    (∃ e, firstRaised (checksInOrder i s) = some e ∧ t = raise e s) ∨ (t.err = 0 ∧ t.fatal = false) := by
  obtain ⟨effect, hc, hx⟩ := runs i s
  cases he : firstRaised (checksInOrder i s) with
  | some e =>
    rw [exec_of_firstRaised hf he] at h
    cases h
    exact .inl ⟨e, rfl, rfl⟩
  | none =>
    rw [hx, command_effect hf he] at h
    exact .inr ⟨(hc t h).1, (hc t h).2.trans hf⟩

/-- R18: an error's code in ERR says that it was raised. -/
theorem firstRaised_of_err {t : State} {e : CommandError} (h : exec i s = .next t) (ht : t.err = e.code) :
    firstRaised (checksInOrder i s) = some e := by
  rcases exec_raises_or_completes hf h with ⟨e', he', rfl⟩ | ⟨h0, -⟩
  · rwa [← CommandError.code_injective ht]
  · exact absurd (ht.symm.trans h0) e.code_ne_zero

end Running

/-! ## When each error is raised (R172 to R174) -/

section When

variable {i : Instr} {s : State}

/-- R173, R178: only the decoder's check comes before. -/
theorem firstRaised_eq_sequence (hw : i.wellFormed = true) :
    firstRaised (checksInOrder i s) = some .sequence ↔ sequenceFails i s = true := by
  simp only [checksInOrder, firstRaised_cons_eq_some, firstRaised_nil]
  simp [hw]

theorem firstRaised_eq_format : firstRaised (checksInOrder i s) = some .format ↔
    i.wellFormed = true ∧ sequenceFails i s = false ∧ formatFails i s = true := by
  simp only [checksInOrder, firstRaised_cons_eq_some, firstRaised_nil]
  simp

theorem firstRaised_eq_config : firstRaised (checksInOrder i s) = some .config ↔
    i.wellFormed = true ∧ sequenceFails i s = false ∧ formatFails i s = false ∧ configFails i s = true := by
  simp only [checksInOrder, firstRaised_cons_eq_some, firstRaised_nil]
  simp

/-- R174: no command with an index has a check of its input's length. -/
theorem wellFormed_of_formatFails (h : formatFails i s = true) : i.wellFormed = true := by
  cases i with
  | rcon | rdrk | ark => cases h
  | _ => rfl

theorem eq_ldkey_of_configFails (h : configFails i s = true) : i = .ldkey ∧ s.ilen ≠ 16 := by
  cases i with
  | ldkey => exact ⟨rfl, notOneBlock_eq_true.1 h⟩
  | _ => cases h

end When

/-! ## What raising leaves (R176, R183) -/

/-- R183: ERR is a code and FATAL says whether it is that of ConfigError; nothing else differs from `s`. -/
def OnlyRaised (s t : State) : Prop :=
  t = { s with err := t.err, fatal := decide (t.err = 1) } ∧ t.err.toNat ≤ 5

theorem onlyRaised_raise {s : State} (hf : s.fatal = false) (e : CommandError) : OnlyRaised s (raise e s) := by
  have hfatal : (s.fatal || e.isFatal) = decide (e.code = 1) := by
    rw [hf, Bool.false_or, Bool.eq_iff_iff, e.isFatal_iff, decide_eq_true_iff]
  refine ⟨?_, e.code_le⟩
  rw [raise_err, ← hfatal]
  rfl

theorem onlyRaised_of_exec {i : Instr} {s t : State} (h : exec i s = .next t) (hf : s.fatal = false) (ht : t.err ≠ 0) :
    OnlyRaised s t := by
  rcases exec_raises_or_completes hf h with ⟨e, -, rfl⟩ | ⟨h0, -⟩
  · exact onlyRaised_raise hf e
  · exact absurd h0 ht

/-! ## FATAL (R171) -/

theorem hostIssue_of_fatal {s : State} (hf : s.fatal = true) (cw : Word32) : hostIssue cw s = .next s :=
  if_pos hf

theorem Executes.eq_of_fatal {i : Instr} {s t : State} (h : Executes s i t) (hf : s.fatal = true) : t = s := by
  cases h with
  | refused => rfl
  | raised _ _ hn | output hn | block hn | ecb hn | nop hn | ldkey hn | kexp hn | ldst hn | transform hn =>
    exact absurd hf (Bool.eq_false_iff.1 hn)

/-- R171: only HostReset clears FATAL. -/
theorem Performs.eq_reset_of_fatal {x : Transaction} {s t : State} (h : Performs s x t) (hf : s.fatal = true)
    (ht : t.fatal = false) : x = .reset := by
  have hcleared : s.fatal ≠ t.fatal := by simp [hf, ht]
  cases h with
  | reset => rfl
  | executed h => exact absurd (congrArg State.fatal (h.eq_of_fatal hf)).symm hcleared
  | reserved _ hn => exact absurd hf (Bool.eq_false_iff.1 hn)
  | put | answered | ignored => exact absurd rfl hcleared

/-! ## The obligations of spec/60_exceptions.md -/

/-- Settles O9: a command is refused before its checks, a word before it is decoded, and the other transactions do not look
at FATAL. -/
theorem fatalRefusesEveryCommand : Obligations.FatalRefusesEveryCommand := by
  refine fun s hs hf => ⟨hostIssue_of_fatal hf, exec_of_fatal hf, hs.fatal_iff_config.1 hf, fun m hm => ?_, ?_,
    fun n => ⟨_, rfl⟩, fun x t h ht => (performs_of_perform h).eq_reset_of_fatal hf ht⟩
  · obtain ⟨t, ht, -, -, hinput, -⟩ := putInputWritesTheMessage.1 s m hs hm
    exact ⟨t, ht, hinput⟩
  · obtain ⟨bs, hbs⟩ := memRead_obuf hs
    exact ⟨_, hostGetOutput_of_memRead hbs⟩

/-- Settles O47: a word that does not decode raises, and any other is its command. -/
theorem raisingChangesOnlyErrAndFatal : Obligations.RaisingChangesOnlyErrAndFatal := by
  refine ⟨fun i s t => onlyRaised_of_exec, fun cw s t h hf ht => ?_⟩
  cases hd : decode cw with
  | ok i => exact onlyRaised_of_exec ((hostIssue_of_decode hf hd).symm.trans h) hf ht
  | error e =>
    cases (hostIssue_of_decode_ne_ok hf (by simp [hd])).symm.trans h
    exact raise_of_not_isFatal (e := .illegalCommand) rfl s ▸ onlyRaised_raise hf .illegalCommand

/-- Settles O48: in a well-formed command the check of the registers is the first. -/
theorem sequenceErrorRule : Obligations.SequenceErrorRule := by
  refine fun i s hw hf => ⟨fun h => ?_, fun t ht h4 => ?_⟩
  · rw [exec_of_firstRaised hf ((firstRaised_eq_sequence hw).2 h), raise_of_not_isFatal rfl]
    rfl
  · exact (firstRaised_eq_sequence hw).1 (firstRaised_of_err (e := .sequence) hf ht h4)

/-- Settles O49: the check of the length is the next, and every command that makes it is well formed. -/
theorem formatErrorRule : Obligations.FormatErrorRule := by
  refine fun i s hf => ⟨fun hseq hfmt => ?_, fun t ht h2 => ?_⟩
  · rw [exec_of_firstRaised hf (firstRaised_eq_format.2 ⟨wellFormed_of_formatFails hfmt, hseq, hfmt⟩),
      raise_of_not_isFatal rfl]
    rfl
  · exact (firstRaised_eq_format.1 (firstRaised_of_err (e := .format) hf ht h2)).2

/-- Settles O51: a command that leaves ERR = 1 or FATAL = 1 has raised ConfigError, whose check is LDKEY's alone and comes
after that of KV. -/
theorem onlyConfigErrorSetsFatal : Obligations.OnlyConfigErrorSetsFatal := by
  refine ⟨fun s => exec_ldkey_of_ilen_ne, fun i s t h hf hor => ?_⟩
  rcases exec_raises_or_completes hf h with ⟨e, he, rfl⟩ | ⟨h0, hfatal⟩
  · have hcode : e.code = 1 := by simpa [hf, e.isFatal_iff] using hor
    obtain rfl : e = .config := CommandError.code_injective hcode
    obtain ⟨-, hseq, -, hcfg⟩ := firstRaised_eq_config.1 he
    obtain ⟨rfl, hilen⟩ := eq_ldkey_of_configFails hcfg
    exact ⟨rfl, hseq, hilen, raise_config s⟩
  · simp [h0, hfatal] at hor

end Sys2Proof.Machine

/-! SUPPORT. The rules of spec/70_reset_and_hazards.md: in a sound state every command, every transaction but an over-long
message and so every run answers a next state, and a reset gives the reset state. -/

namespace Sys2Proof.Machine

/-! ## Effects answer a next state (R207) -/

/-- The outcome is a next state: neither a fault nor a refusal. -/
def Answers (r : Result) : Prop := ∃ t, r = .next t

theorem answers_next (s : State) : Answers (.next s) := ⟨s, rfl⟩

theorem answers_complete (s : State) : Answers (complete s) := answers_next _

/-- R46: a read that gives bytes leaves the outcome to their effect. -/
theorem answers_withBytes {s : State} {space : Space} {addr n : Nat} {bs : List Byte} {k : List Byte → State → Result}
    (h : memRead s space addr n = some bs) (hk : Answers (k bs s)) : Answers (withBytes space addr n k s) := by
  rwa [withBytes, h]

/-- R144: with the capacity checked the padded message fits OBUF. -/
theorem pad_length_le_of_not_paddedTooLong {s : State} {m : List Byte} (hm : m.length = messageLen s)
    (hfit : paddedTooLong s = false) : (pad m).length ≤ s.cap := by
  rw [pad_length_eq_add, hm]
  exact paddedTooLong_eq_false.1 hfit

section Sound

variable {s : State} (hs : s.Inv)

include hs

theorem answers_deliver {v : List Byte} (hv : v.length ≤ s.cap) : Answers (deliver v s) := ⟨_, deliver_sound hs hv⟩

/-- R5: there is room for one byte in every OBUF. -/
theorem answers_deliver_byte (v : Byte) : Answers (deliver [v] s) := by
  obtain ⟨-, hcap, -⟩ := hs.cap_admissible
  exact answers_deliver hs ((show 1 ≤ 32 by decide).trans hcap)

theorem answers_deliver_block (b : Block) : Answers (deliver (blockToBytes b) s) := ⟨_, deliver_block hs b⟩

theorem answers_deliverUnpadded {d : List Byte} (hd : d.length ≤ s.cap) : Answers (deliverUnpadded d s) := by
  obtain ⟨v, n, -, h, -⟩ := deliverUnpadded_sound hs hd
  exact ⟨_, h⟩

/-- R23: there always is a message, of at most CAP bytes. -/
theorem answers_withMessage {k : List Byte → State → Result}
    (hk : ∀ m : List Byte, m.length = messageLen s → m.length ≤ s.cap → Answers (k m s)) : Answers (withMessage k s) := by
  obtain ⟨m, hm⟩ := input_exists hs
  have hlen := input_length hm
  rw [withMessage_eq hm]
  exact hk m hlen (hlen.trans_le hs.ilen_le_cap)

/-- R45: the block is read only where ILEN is 16. -/
theorem answers_withBlock {k : Block → State → Result} (hl : notOneBlock s = false) (hk : ∀ b, Answers (k b s)) :
    Answers (withBlock k s) := by
  obtain ⟨m, hm⟩ := input_exists hs
  rw [withBlock_eq hm (notOneBlock_eq_false.1 hl)]
  exact hk (blockOfBytes m)

end Sound

/-! ## Commands answer a next state (R207) -/

namespace Answers

variable {i : Instr} {s : State}

/-- R170: a command that is refused or raises answers, so only its effect behind all its checks is left. -/
theorem of_command {checks : List (Bool × CommandError)} {effect : State → Result} (hx : exec i s = command s checks effect)
    (h : (∀ c ∈ checks, c.1 = false) → Answers (effect s)) : Answers (exec i s) := by
  rw [hx]
  rcases command_cases (s := s) (checks := checks) (effect := effect) rfl with ⟨-, hr⟩ | ⟨-, e, -, hr⟩ | ⟨-, hc, hr⟩
  · exact ⟨_, hr⟩
  · exact ⟨_, hr⟩
  · exact hr ▸ h (firstRaised_eq_none.1 hc)

/-- R122 to R127. -/
theorem of_transformState {f : Mat → Mat} (hx : exec i s = transformState f s) : Answers (exec i s) :=
  of_command hx fun _ => answers_complete _

/-- R132, R133. -/
theorem of_blockCommand {f : Block → Schedule → Block} (hs : s.Inv) (hx : exec i s = blockCommand f s) :
    Answers (exec i s) :=
  of_command hx fun hc =>
    answers_withBlock hs (hc (notOneBlock s, .format) (by simp)) fun _ => answers_deliver_block (inv_discardState hs) _

end Answers

/-- R207: with its checks passed every command reads only valid bytes and has room for its result. -/
theorem answers_exec {s : State} (hs : s.Inv) (i : Instr) : Answers (exec i s) := by
  cases i with
  | nop => exact .of_command (exec_nop s) fun _ => answers_complete s
  | gfdbl a => exact .of_command (exec_gfdbl s a) fun _ => answers_deliver_byte hs _
  | gfmul a b => exact .of_command (exec_gfmul s a b) fun _ => answers_deliver_byte hs _
  | sbox a => exact .of_command (exec_sbox s a) fun _ => answers_deliver_byte hs _
  | isbox a => exact .of_command (exec_isbox s a) fun _ => answers_deliver_byte hs _
  | rcon idx =>
    refine .of_command (exec_rcon s idx) fun hc => ?_
    have hidx : idx.toNat ≤ 9 := by simpa using hc
    exact answers_withBytes (memRead_rcon s hidx) (answers_deliver_byte hs _)
  | ldkey =>
    exact .of_command (exec_ldkey s) fun hc =>
      answers_withBlock hs (hc (notOneBlock s, .config) (by simp)) fun _ => answers_complete _
  | kexp => exact .of_command (exec_kexp s) fun _ => answers_complete _
  | rdrk idx => exact .of_command (exec_rdrk s idx) fun _ => answers_deliver_block hs _
  | ldst =>
    exact .of_command (exec_ldst s) fun hc =>
      answers_withBlock hs (hc (notOneBlock s, .format) (by simp)) fun _ => answers_complete _
  | stst => exact .of_command (exec_stst s) fun _ => answers_deliver_block hs _
  | ark idx => exact .of_command (exec_ark s idx) fun _ => answers_complete _
  | subb => exact .of_transformState (exec_subb s)
  | isubb => exact .of_transformState (exec_isubb s)
  | shrow => exact .of_transformState (exec_shrow s)
  | ishrow => exact .of_transformState (exec_ishrow s)
  | mixc => exact .of_transformState (exec_mixc s)
  | imixc => exact .of_transformState (exec_imixc s)
  | encb => exact .of_blockCommand hs (exec_encb s)
  | decb => exact .of_blockCommand hs (exec_decb s)
  | pad =>
    refine .of_command (exec_pad s) fun hc => answers_withMessage hs fun m hm _ => answers_deliver hs ?_
    exact pad_length_le_of_not_paddedTooLong hm (hc (paddedTooLong s, .capacity) (by simp))
  | unpad => exact .of_command (exec_unpad s) fun _ => answers_withMessage hs fun _ _ => answers_deliverUnpadded hs
  | ecbe =>
    refine .of_command (exec_ecbe s) fun hc => answers_withMessage hs fun m hm _ => ?_
    have hk : s.kv = true := by simpa using hc (!s.kv, .sequence) (by simp)
    refine answers_deliver (inv_discardState (inv_expandKey hs hk)) ?_
    simpa [ecbEncode_length_eq_pad] using
      pad_length_le_of_not_paddedTooLong hm (hc (paddedTooLong s, .capacity) (by simp))
  | ecbd =>
    refine .of_command (exec_ecbd s) fun hc => answers_withMessage hs fun m _ hm => ?_
    have hk : s.kv = true := by simpa using hc (!s.kv, .sequence) (by simp)
    refine answers_deliverUnpadded (inv_discardState (inv_expandKey hs hk)) ?_
    rw [ecbDecryptBlocks_length, discardState_cap, expandKey_cap]
    exact (Nat.mul_div_le _ _).trans hm

/-! ## Transactions answer a next state (R46 to R52, R207) -/

section Port

variable {s : State} (hs : s.Inv)

include hs

theorem answers_hostIssue (cw : Word32) : Answers (hostIssue cw s) := by
  cases hf : s.fatal with
  | true => exact ⟨s, hostIssue_of_fatal hf cw⟩
  | false =>
    cases hd : decode cw with
    | ok i => exact hostIssue_of_decode hf hd ▸ answers_exec hs i
    | error e => exact ⟨_, hostIssue_of_decode_ne_ok hf (by simp [hd])⟩

/-- R48: the only transaction that may have no next state is a message longer than CAP. -/
theorem answers_perform {x : Transaction} (hx : ∀ m, x = .put m → m.length ≤ s.cap) : Answers (perform x s) := by
  cases x with
  | put m => exact ⟨_, hostPutInput_of_le hs.ibuf_holds.wf (hx m rfl)⟩
  | issue cw => exact answers_hostIssue hs cw
  | getOutput =>
    obtain ⟨bs, hbs⟩ := memRead_obuf hs
    exact ⟨_, hostGetOutput_of_memRead hbs⟩
  | readReg n => exact answers_next _
  | writeReg n v =>
    by_cases hn : n = 0
    · subst hn; exact answers_hostIssue hs v
    · exact ⟨s, hostWriteReg_of_ne_zero hn v s⟩
  | reset => exact answers_next _

theorem answers_step_or_refuses : Answers (step s) ∨
    ∃ m rest, s.host = .put m :: rest ∧ s.cap < m.length ∧ step s = .refused (.messageTooLong m.length) := by
  cases hh : s.host with
  | nil => exact .inl ⟨s, step_of_host_nil hh⟩
  | cons x rest =>
    rw [step_of_host_cons hh]
    by_cases hx : ∀ m, x = .put m → m.length ≤ s.cap
    · exact .inl (answers_perform (inv_host hs rest .none) hx)
    · push Not at hx
      obtain ⟨m, rfl, hm⟩ := hx
      exact .inr ⟨m, rest, rfl, hm, hostPutInput_of_lt hm⟩

end Port

/-! ## Runs with fitting messages (R207, R209) -/

/-- R28, R6: no transaction changes CAP or what HOST has yet to make. -/
theorem Performs.cap_host_eq {x : Transaction} {s t : State} (h : Performs s x t) : t.cap = s.cap ∧ t.host = s.host := by
  cases h with
  | executed h =>
    obtain ⟨hin, hcap⟩ := h.sameInput
    exact ⟨hcap, hin.host⟩
  | put | reserved | answered | ignored | reset => exact ⟨rfl, rfl⟩

theorem step_cap_host_eq {s t : State} (h : step s = .next t) : t.cap = s.cap ∧ t.host = s.host.tail := by
  cases hh : s.host with
  | nil => cases (step_of_host_nil hh).symm.trans h; exact ⟨rfl, hh⟩
  | cons x rest => exact (performs_of_perform ((step_of_host_cons hh).symm.trans h)).cap_host_eq

/-- R48: HOST has yet to put no message longer than CAP. -/
def MessagesFit (s : State) : Prop := ∀ m, Transaction.put m ∈ s.host → m.length ≤ s.cap

theorem step_messagesFit {s t : State} (hfit : MessagesFit s) (h : step s = .next t) : MessagesFit t := by
  obtain ⟨hcap, hhost⟩ := step_cap_host_eq h
  intro m hm
  rw [hhost] at hm
  exact (hfit m (List.mem_of_mem_tail hm)).trans hcap.ge

theorem answers_step {s : State} (hs : s.Inv) (hfit : MessagesFit s) : Answers (step s) := by
  refine (answers_step_or_refuses hs).resolve_right ?_
  rintro ⟨m, rest, hh, hlt, -⟩
  exact Nat.not_le.2 hlt (hfit m (by simp [hh]))

theorem run_answers {s : State} (k : Nat) (hs : s.Inv) (hfit : MessagesFit s) : ∃ t, core.run k s = .next t ∧ t.Inv := by
  induction k generalizing s with
  | zero => exact ⟨s, rfl, hs⟩
  | succ k ih =>
    obtain ⟨t, ht⟩ := answers_step hs hfit
    rw [run_succ ht]
    exact ih (step_inv hs ht) (step_messagesFit hfit ht)

/-! ## The obligations of spec/70_reset_and_hazards.md -/

/-- Settles O59, by induction on the number of steps: each answers, and keeps soundness and that the messages fit. -/
theorem runsNeverStop : Obligations.RunsNeverStop := fun k _ => run_answers k

/-- Settles O57: reads stay within the valid bytes and results within CAP, so only a message longer than CAP stops. -/
theorem noCommandHangsOrFaults : Obligations.NoCommandHangsOrFaults := fun _ hs =>
  ⟨answers_exec hs, answers_step_or_refuses hs⟩

/-- Settles O14: the reset state has the capacity of the state before, and free values in KEY, W and S. -/
theorem hostResetGivesTheResetState : Obligations.HostResetGivesTheResetState := fun _ => ⟨_, _, _, _, rfl⟩

end Sys2Proof.Machine
